-- ==== Sys2Proof/Word.lean ====
section
/-! DEFINITION. The words of the block (spec/00_scope.md R6, R9) and the two records the host hands it:
a buffer binding and the command record (spec/10_state.md R12). -/

namespace Sys2Proof

/-- A byte of a buffer: 8 bits (R6). -/
abbrev Byte := BitVec 8

/-- One of the four 14-bit slices of a 56-bit stride (R9 "field"). -/
abbrev Field := BitVec 14

/-- A 16-bit code unit (R9 "code unit"). -/
abbrev CodeUnit := BitVec 16

/-- The width of `ACC` and of the response value (R5 `ACC_W`, `LEN_W`). -/
abbrev Word := BitVec 32

/-- A buffer the host binds for one command (R12, R20): where it lies in the platform's memory and how many
of its bytes may be accessed. Index `i` of the buffer is the platform's byte `base + i`. -/
structure Binding where
  base : Nat
  cap  : Nat
  deriving DecidableEq, Repr

/-- The command record, host to block (R12). A field the command does not use is ignored. -/
structure Command where
  cmd : BitVec 8
  n   : BitVec 32
  off : BitVec 3
  val : Word
  src : Binding
  dst : Binding
  deriving DecidableEq, Repr

end Sys2Proof
end

