-- ==== Sys2Proof/Machine/Parameters.lean ====
section
/-! DEFINITION. The parameters the spec fixes (spec/00_scope.md R5) and the remainder table (spec/40_datapath.md R55).
They stand under Machine so that a definition a test refutes can be mended. -/

namespace Sys2Proof.Machine

/-- `STRIDE`: plaintext bytes per full group. -/
def stride : Nat := 7

/-- `GROUP_BYTES`: encoded bytes per full group. -/
def groupBytes : Nat := 8

/-- `BIAS`, added to every 16-bit unit (spec/90_conflicts.md C3, D6). -/
def bias : CodeUnit := 0x4E00

/-- `MARKER`: the first byte of the remainder marker (R39). -/
def marker : Byte := 0x3D

/-- `HEADER`: the host's optional stream header; the block neither writes nor recognises it (R41, D17). -/
def header : List Byte := [0xFE, 0xFF]

/-- `SLACK_ENC`: bytes past the end the unchecked encoder may read. -/
def slackEnc : Nat := 6

/-- `SLACK_DEC`: bytes past the end the unchecked decoder may read. -/
def slackDec : Nat := 2

/-- A length result at or above this does not fit `LEN_W` = 32 bits (R7, R70, D5). -/
def lengthBound : Nat := 2 ^ 32

/-- `ROT`: the left rotation of the checksum step (R87). -/
def checksumRotation : Nat := 3

/-- `SPREAD_POS` (D13, G1): where the bit pairs 7:6, 5:4, 3:2, 1:0 of a byte go. PRESUMED, unsafe: the spec takes it
from general knowledge (log 13). -/
def spreadPos : Fin 4 → Nat
  | 0 => 24
  | 1 => 16
  | 2 => 8
  | 3 => 0

/-- `U[r]`: units that carry a final stride of `r` bytes (R55). Outside 0..6 the table has no row and no rule asks for
one (log 20). -/
def unitCount : Nat → Nat
  | 1 => 1
  | 2 => 2
  | 3 => 2
  | 4 => 3
  | 5 => 3
  | 6 => 4
  | _ => 0

/-- `COST[r]`: encoded bytes a remainder of `r` adds, marker included (R55, R5). -/
def cost : Nat → Nat
  | 1 => 4
  | 2 => 6
  | 3 => 6
  | 4 => 8
  | 5 => 8
  | 6 => 10
  | _ => 0

/-- `S[r]`: spare bits of the last unit of a partial group (R55). -/
def spareBits : Nat → Nat
  | 1 => 6
  | 2 => 12
  | 3 => 4
  | 4 => 10
  | 5 => 2
  | 6 => 8
  | _ => 0

/-- `SHIFT[r]`: the checksum's right shift (R55, R5). -/
def checksumShift : Nat → Nat
  | 1 => 26
  | 2 => 20
  | 3 => 28
  | 4 => 22
  | 5 => 30
  | 6 => 24
  | _ => 0

end Sys2Proof.Machine
end

