-- ==== Sys2Proof/Machine/Datapath.lean ====
section
/-! DEFINITION. The pure functions of the datapath (spec/40_datapath.md): the 7→4 unit encoder, the 4→7 decoder, and
the partial group. They read and write no state. -/

namespace Sys2Proof.Machine

/-- The four fields of a stride, or of a group (R9 `F0..F3`). -/
abbrev Fields := Field × Field × Field × Field

/-- `FIELDS` (R57): `B56` cut into four 14-bit fields, `b0` most significant. -/
def fields (b0 b1 b2 b3 b4 b5 b6 : Byte) : Fields :=
  (b0 ++ b1.extractLsb' 2 6,
   b1.extractLsb' 0 2 ++ b2 ++ b3.extractLsb' 4 4,
   b3.extractLsb' 0 4 ++ b4 ++ b5.extractLsb' 6 2,
   b5.extractLsb' 0 6 ++ b6)

/-- The code unit of a field, `W = 0x4E00 + F` (R35). -/
def codeUnit (f : Field) : CodeUnit := bias + f.setWidth 16

/-- `UNIT` (R58, R36): the two bytes of a field's code unit, high byte first. -/
def unit (f : Field) : List Byte := [(codeUnit f).extractLsb' 8 8, (codeUnit f).extractLsb' 0 8]

/-- The units of four fields, in order. -/
def unitsOf : Fields → List Byte
  | (f0, f1, f2, f3) => unit f0 ++ unit f1 ++ unit f2 ++ unit f3

/-- `ENC7` (R59). -/
def enc7 (b0 b1 b2 b3 b4 b5 b6 : Byte) : List Byte := unitsOf (fields b0 b1 b2 b3 b4 b5 b6)

/-- `UNFIELD` (R60): the bias subtracted per unit modulo 2^16, bits 15:14 of the difference dropped. For a unit
outside `0x4E00..0x8DFF` the value is this block's own (R66, D8; log 12). -/
def unfield (hi lo : Byte) : Field := ((hi ++ lo : CodeUnit) - bias).extractLsb' 0 14

/-- The seven bytes of four fields: the slices of `F0 ‖ F1 ‖ F2 ‖ F3` (R61). -/
def bytesOf : Fields → List Byte
  | (f0, f1, f2, f3) =>
    [f0.extractLsb' 6 8,
     f0.extractLsb' 0 6 ++ f1.extractLsb' 12 2,
     f1.extractLsb' 4 8,
     f1.extractLsb' 0 4 ++ f2.extractLsb' 10 4,
     f2.extractLsb' 2 8,
     f2.extractLsb' 0 2 ++ f3.extractLsb' 8 6,
     f3.extractLsb' 0 8]

/-- `DEC8` (R61). -/
def dec8 (e0 e1 e2 e3 e4 e5 e6 e7 : Byte) : List Byte :=
  bytesOf (unfield e0 e1, unfield e2 e3, unfield e4 e5, unfield e6 e7)

/-- `ENC7` of seven bytes given as a list. -/
def encStride (b : List Byte) : List Byte :=
  enc7 (b.getD 0 0) (b.getD 1 0) (b.getD 2 0) (b.getD 3 0) (b.getD 4 0) (b.getD 5 0) (b.getD 6 0)

/-- `DEC8` of eight bytes given as a list. -/
def decGroup (e : List Byte) : List Byte :=
  dec8 (e.getD 0 0) (e.getD 1 0) (e.getD 2 0) (e.getD 3 0) (e.getD 4 0) (e.getD 5 0) (e.getD 6 0) (e.getD 7 0)

/-- `ENCR` (R62): the first `U[r]` units of the stride the `r` bytes and `7-r` zero bytes give. -/
def encR (r : Nat) (b : List Byte) : List Byte :=
  (encStride (b ++ List.replicate (7 - r) 0)).take (2 * unitCount r)

/-- `DECR` (R63): the first `r` bytes of the group the `U[r]` units and `8 - 2*U[r]` zero bytes give. -/
def decR (r : Nat) (e : List Byte) : List Byte :=
  (decGroup (e ++ List.replicate (8 - 2 * unitCount r) 0)).take r

/-- One row of the per-byte table (R65): the terms byte `i` ORs into the fields. A stride has no byte beyond 6. -/
def orRow (i : Nat) (b : Byte) : Fields → Fields
  | (f0, f1, f2, f3) =>
    match i with
    | 0 => (f0 ||| b.setWidth 14 <<< 6, f1, f2, f3)
    | 1 => (f0 ||| b.setWidth 14 >>> 2, f1 ||| (b.setWidth 14 &&& 0x03) <<< 12, f2, f3)
    | 2 => (f0, f1 ||| b.setWidth 14 <<< 4, f2, f3)
    | 3 => (f0, f1 ||| b.setWidth 14 >>> 4, f2 ||| (b.setWidth 14 &&& 0x0F) <<< 10, f3)
    | 4 => (f0, f1, f2 ||| b.setWidth 14 <<< 2, f3)
    | 5 => (f0, f1, f2 ||| b.setWidth 14 >>> 6, f3 ||| (b.setWidth 14 &&& 0x3F) <<< 8)
    | 6 => (f0, f1, f2, f3 ||| b.setWidth 14)
    | _ => (f0, f1, f2, f3)

/-- Rows `i`, `i+1`, … of the per-byte table applied to the bytes in order (R56, R65). -/
def orRows : Nat → List Byte → Fields → Fields
  | _, [], f => f
  | i, b :: bs, f => orRows (i + 1) bs (orRow i b f)

/-- `ENCR` as the loop over the per-byte table: all fields zero, rows `0 .. r-1`, then the first `U[r]` units (R62). -/
def encRByRows (r : Nat) (b : List Byte) : List Byte :=
  (unitsOf (orRows 0 (b.take r) (0, 0, 0, 0))).take (2 * unitCount r)

/-- The remainder `off`, if an encoded length `n` has room for its partial group and the rest is whole groups: the last
two tests of R80. -/
def fitRemainder (n off : Nat) : Option Nat :=
  if n < cost off then none
  else if (n - cost off) % groupBytes ≠ 0 then none
  else some off

/-- The dispatcher's validation of an encoded length `n` whose last two bytes are `mk`, `last` (R56, R80): the
remainder 0..6, or nothing when DECODE.C and CHECKSUM answer InvalidInputLength. The bytes are looked at only when
`n >= 2`. -/
def selectRemainder (n : Nat) (mk last : Byte) : Option Nat :=
  if n = 0 then some 0
  else if n = 1 then none
  else if mk = marker then
    if last.toNat < 1 ∨ 6 < last.toNat then none else fitRemainder n last.toNat
  else fitRemainder n 0

end Sys2Proof.Machine
end

