-- ==== Sys2Proof/Config.lean ====
section
/-! DEFINITION. What the spec leaves to one machine or to nobody: constants without a body, so that nothing can be
proved about their values. The parameters the spec does fix (spec/00_scope.md R5) are in Machine/Parameters.lean. -/

namespace Sys2Proof

/-- `SUM_SEED` (R5, D14 `OPEN`): the constant a host writes with WRSUM at the start of a stream. The block does not
know it (R17 c), so no command reads it. Log 14. -/
opaque Config.sumSeed : Word

/-- The value `ACC` holds after the reset that made draw number `k` (R115, U9 "any value"). Log 1, log 2. -/
opaque Config.freeAcc (draw : Nat) : Word

/-- The value of byte `k` of the write footprint of a command that the reset with draw number `draw` abandoned
(R116, U17 "any value"). Log 2, log 11. -/
opaque Config.freeByte (draw k : Nat) : Byte

end Sys2Proof
end

