-- ==== Sys2Proof/Syntax.lean ====
section
/-! DEFINITION. The commands of spec/opcode_table.json, one constructor per row, with the operands the row names
(spec/30_encoding.md R47, R48, R51). A length or an offset is a natural number (R7); its width is checked by
`Instr.wellFormed`. -/

namespace Sys2Proof

inductive Instr where
  /-- `ENCLEN n` (R70): `n` is a plaintext length. -/
  | encLen (n : Nat)
  /-- `DECLEN n, off` (R71): `n` is an encoded length, `off` a remainder. -/
  | decLen (n off : Nat)
  /-- `ENCODE.U n, src, dst` (R75, `CB = 0`). -/
  | encodeU (n : Nat) (src dst : Binding)
  /-- `ENCODE.C n, src, dst` (R75, `CB = 1`). -/
  | encodeC (n : Nat) (src dst : Binding)
  /-- `DECODE.U n, src, dst` (R81). -/
  | decodeU (n : Nat) (src dst : Binding)
  /-- `DECODE.C n, src, dst` (R80). -/
  | decodeC (n : Nat) (src dst : Binding)
  /-- `CALCSUM n, src` (R90): `n` is a plaintext length. -/
  | calcSum (n : Nat) (src : Binding)
  /-- `EMBEDSUM n, dst` (R91): `n` is the plaintext length of the chunk whose encoding is in `dst`. -/
  | embedSum (n : Nat) (dst : Binding)
  /-- `CHECKSUM n, src` (R92): `n` is an encoded length. -/
  | checkSum (n : Nat) (src : Binding)
  /-- `WRSUM val` (R88). -/
  | wrSum (val : Word)
  /-- `RDSUM` (R89). -/
  | rdSum
  deriving DecidableEq, Repr

end Sys2Proof
end

