-- ==== Sys2Proof/WellFormed.lean ====
section
/-! DEFINITION. Which commands a command record can carry: every operand fits its field
(spec/10_state.md R12, spec/30_encoding.md R48). -/

namespace Sys2Proof

/-- A length operand fits `N`, 32 bits (R12, R5 `LEN_W`). -/
def lengthFits (n : Nat) : Bool := decide (n < 2 ^ 32)

/-- An offset operand fits `OFF`, 3 bits; 7 fits and is rejected by DECLEN itself (R48, R71). -/
def offsetFits (off : Nat) : Bool := decide (off < 2 ^ 3)

/-- Every operand of the command fits its field of the command record. -/
def Instr.wellFormed : Instr → Bool
  | .encLen n => lengthFits n
  | .decLen n off => lengthFits n && offsetFits off
  | .encodeU n _ _ => lengthFits n
  | .encodeC n _ _ => lengthFits n
  | .decodeU n _ _ => lengthFits n
  | .decodeC n _ _ => lengthFits n
  | .calcSum n _ => lengthFits n
  | .embedSum n _ => lengthFits n
  | .checkSum n _ => lengthFits n
  | .wrSum _ => true
  | .rdSum => true

end Sys2Proof
end

