-- ==== Sys2Proof/Decode.lean ====
section
/-! DEFINITION. Reading a command from a command record, and back (spec/30_encoding.md R45 to R49). -/

namespace Sys2Proof

/-- Why a command word is illegal: the three ways of R49. -/
inductive DecodeError where
  /-- `CMD[7:5] != 0`. -/
  | reservedBitsSet
  /-- `OP` in `0x9..0xF`. -/
  | unassignedOperation
  /-- `CB = 1` with `OP` other than ENCODE or DECODE. -/
  | checkedBitNotAllowed
  deriving DecidableEq, Repr

/-- `CMD[3:0]` (R45). -/
def Command.op (c : Command) : BitVec 4 := c.cmd.extractLsb' 0 4

/-- `CMD[4]` (R45). -/
def Command.cb (c : Command) : Bool := c.cmd.getLsbD 4

/-- `CMD[7:5]` (R45). -/
def Command.reserved (c : Command) : BitVec 3 := c.cmd.extractLsb' 5 3

/-- The command a record carries, or why its word is illegal (R45 to R49). Decided on the command word alone;
operands are taken as they are, unsigned and at full width (R48). -/
def decode (c : Command) : Except DecodeError Instr :=
  if c.reserved ≠ 0 then .error .reservedBitsSet
  else
    match c.op.toNat, c.cb with
    | 0, false => .ok (.encLen c.n.toNat)
    | 1, false => .ok (.decLen c.n.toNat c.off.toNat)
    | 2, false => .ok (.encodeU c.n.toNat c.src c.dst)
    | 2, true => .ok (.encodeC c.n.toNat c.src c.dst)
    | 3, false => .ok (.decodeU c.n.toNat c.src c.dst)
    | 3, true => .ok (.decodeC c.n.toNat c.src c.dst)
    | 4, false => .ok (.calcSum c.n.toNat c.src)
    | 5, false => .ok (.embedSum c.n.toNat c.dst)
    | 6, false => .ok (.checkSum c.n.toNat c.src)
    | 7, false => .ok (.wrSum c.val)
    | 8, false => .ok .rdSum
    | op, _ => if op ≤ 8 then .error .checkedBitNotAllowed else .error .unassignedOperation

/-- The command word with no operand: what an unused field of an encoded record holds (log 16). -/
def Command.ofWord (cmd : BitVec 8) : Command :=
  { cmd := cmd, n := 0, off := 0, val := 0, src := ⟨0, 0⟩, dst := ⟨0, 0⟩ }

/-- The command record of a command (R47, R48); fields it does not use are zero and unbound (R12, log 16). -/
def encode : Instr → Command
  | .encLen n => { Command.ofWord 0x00 with n := BitVec.ofNat 32 n }
  | .decLen n off => { Command.ofWord 0x01 with n := BitVec.ofNat 32 n, off := BitVec.ofNat 3 off }
  | .encodeU n src dst => { Command.ofWord 0x02 with n := BitVec.ofNat 32 n, src := src, dst := dst }
  | .encodeC n src dst => { Command.ofWord 0x12 with n := BitVec.ofNat 32 n, src := src, dst := dst }
  | .decodeU n src dst => { Command.ofWord 0x03 with n := BitVec.ofNat 32 n, src := src, dst := dst }
  | .decodeC n src dst => { Command.ofWord 0x13 with n := BitVec.ofNat 32 n, src := src, dst := dst }
  | .calcSum n src => { Command.ofWord 0x04 with n := BitVec.ofNat 32 n, src := src }
  | .embedSum n dst => { Command.ofWord 0x05 with n := BitVec.ofNat 32 n, dst := dst }
  | .checkSum n src => { Command.ofWord 0x06 with n := BitVec.ofNat 32 n, src := src }
  | .wrSum val => { Command.ofWord 0x07 with val := val }
  | .rdSum => Command.ofWord 0x08

/-- The record a host issues to run a bare command word: all operands zero, a source of `SLACK_ENC` = 6 bytes and an
empty destination beside it, which is what R120 to R122 ask of a host for `N = 0` (log 6). -/
def Command.ofTableWord (nbits w : Nat) : Command :=
  { Command.ofWord (BitVec.ofNat 8 (w % 2 ^ nbits)) with src := ⟨0, 6⟩, dst := ⟨6, 0⟩ }

/-- What the decoder reads from a row of spec/opcode_table.json: its bits are the command word (R46). -/
def decodeTableWord (nbits w : Nat) : Option Instr := (decode (Command.ofTableWord nbits w)).toOption

end Sys2Proof
end

