-- ==== Sys2Proof/Machine/State.lean ====
section
/-! DEFINITION. The state of the block and of the host that drives it (spec/10_state.md), the response record, and the
ways a step can stop. -/

namespace Sys2Proof.Machine

/-- The response status (spec/30_encoding.md R53). -/
inductive Status where
  /-- The command had its effect. -/
  | ok
  /-- A length the command does not accept (R101). -/
  | invalidInputLength
  /-- CHECKSUM found other embedded bits than `ACC` gives (R102). -/
  | invalidDecodingChecksum
  /-- The command word matches no row of the opcode map (R103). -/
  | illegalCommand
  deriving DecidableEq, Repr

/-- The response record, block to host (R13). -/
structure Response where
  status : Status
  value  : Word
  deriving DecidableEq, Repr

/-- What the host does between issuing a command and receiving its response (R118, R119). -/
inductive WindowAct where
  /-- It issues another command. -/
  | issue (c : Command)
  /-- It reads the byte at a platform address. -/
  | read (addr : Nat)
  /-- It writes the byte at a platform address. -/
  | write (addr : Nat) (b : Byte)
  deriving DecidableEq, Repr

/-- One thing the host does while the block is idle (R18). -/
inductive HostAction where
  /-- It issues a command; `window` is what it does before the response, in order, and `resets` says that it then
  applies reset before the response is given (R116). -/
  | issue (c : Command) (window : List WindowAct) (resets : Bool)
  /-- It writes a byte of its memory (R17 b, R18). -/
  | write (addr : Nat) (b : Byte)
  /-- It applies reset. -/
  | reset
  deriving DecidableEq, Repr

/-- The host's memory, in which every bound buffer lies: address and byte pairs, addresses strictly rising, no pair
whose byte is what an unlisted address reads as (`Memory.wf` in Machine/Ops.lean; log 3, log 4). -/
abbrev Memory := List Host.Cell

/-- Everything a step reads or writes. `acc` is the block's one register (R11). `mem` holds the buffers' bytes, the
host's own (R17 b). `host` is what the host does next, in order (R18, log 5). `response` is the response the host last
received, none since reset; no step reads it (R13, log 7). `draws` counts the free values drawn (log 2). -/
structure State where
  acc      : Word
  mem      : Memory
  host     : List HostAction
  response : Option Response
  draws    : Nat
  deriving DecidableEq, Repr

/-- Right after reset: idle, no response pending (R116); `ACC` holds any value (R115, log 1); memory with nothing
listed (log 3); no host action yet (log 5). -/
def State.reset : State :=
  { acc := Config.freeAcc 0, mem := [], host := [], response := none, draws := 1 }

/-- The machine has no fault. What the spec calls an error is a response (R100, R107), and what it leaves without
meaning is a refusal (R8), so this type has no constructor; leaving it empty is safe (log 18). -/
inductive Fault where
  deriving DecidableEq, Repr

/-- Why a step has no meaning. Each constructor but the first is a case the spec tells a model to refuse (R8). All are
safe: no claim about a next state can be proved of them. -/
inductive Refusal where
  /-- Raised by `exec` for an instruction without a meaning; no arm uses it. -/
  | notModelled (mnemonic : String)
  /-- Raised by ENCODE, DECODE, CALCSUM and CHECKSUM when `SRC_CAP` is below what the command may read, the slack of
  the unchecked variants included (R21, R120, R121, U7). Safe. -/
  | sourceBeyondCapacity
  /-- Raised by ENCODE, DECODE and EMBEDSUM when `DST_CAP` is too small (R22, R122, U7). Safe. -/
  | destinationBeyondCapacity
  /-- Raised by ENCODE and DECODE when the two bound ranges share a byte (R34, U8). Safe. -/
  | overlappingBuffers
  /-- Raised by DECODE.U on input that DECODE.C answers with an error (R81, U3). Safe. -/
  | uncheckedMalformedInput
  /-- Raised by a step when the host issues a command before the response of the previous one (R118, U10). Safe. -/
  | commandWhileBusy
  /-- Raised by a step when the host reads or writes a byte of a bound buffer before the response (R119, D20, U15).
  Safe. -/
  | bufferTouchedWhileBusy
  deriving DecidableEq, Repr

end Sys2Proof.Machine
end

