-- ==== Sys2Proof/Machine/Ops.lean ====
section
/-! DEFINITION. The named operations over memory (spec/20_memory.md R20 to R25) and over the response and reset
(spec/60_exceptions.md R107, spec/70_reset_and_hazards.md R115, R116). -/

namespace Sys2Proof.Machine

/-- What an address with no entry reads as. DESIGN CHOICE, unsafe (log 3). -/
def unlistedByte : Byte := 0x00

/-- One byte of memory. Reading has no side effect (R21, R25). -/
def Memory.read : Memory → Nat → Byte
  | [], _ => unlistedByte
  | (b, v) :: rest, a => if b = a then v else Memory.read rest a

/-- Memory without an entry for an address. -/
def Memory.erase : Memory → Nat → Memory
  | [], _ => []
  | (b, v) :: rest, a => if b = a then Memory.erase rest a else (b, v) :: Memory.erase rest a

/-- An entry put before the first entry of a higher address. -/
def Memory.place : Memory → Nat → Byte → Memory
  | [], a, v => [(a, v)]
  | (b, w) :: rest, a, v => if a < b then (a, v) :: (b, w) :: rest else (b, w) :: Memory.place rest a v

/-- Memory with one byte written; the canonical form is kept, so writing `unlistedByte` lists nothing. -/
def Memory.write (m : Memory) (a : Nat) (v : Byte) : Memory :=
  if v = unlistedByte then m.erase a else (m.erase a).place a v

/-- `MemRead`: `n` bytes from an address up, lowest first (R21). -/
def Memory.readBytes (m : Memory) : Nat → Nat → List Byte
  | _, 0 => []
  | a, n + 1 => m.read a :: m.readBytes (a + 1) n

/-- `MemWrite`: bytes stored from an address up, first byte lowest (R22). -/
def Memory.writeBytes (m : Memory) : Nat → List Byte → Memory
  | _, [] => m
  | a, b :: bs => (m.write a b).writeBytes (a + 1) bs

/-- Every entry lies at `lo` or above, addresses rise strictly, and no entry holds `unlistedByte`. -/
def Memory.wfFrom : Nat → Memory → Bool
  | _, [] => true
  | lo, (a, v) :: rest => decide (lo ≤ a) && decide (v ≠ unlistedByte) && Memory.wfFrom (a + 1) rest

/-- The canonical form of memory, under which equal contents are equal lists. -/
def Memory.wf (m : Memory) : Bool := Memory.wfFrom 0 m

/-- `respond(status, value)`: the command ends and the host holds its response (R8, R13). -/
def respond (status : Status) (value : Word) (s : State) : Host.Outcome State Fault Refusal :=
  .next { s with response := some { status := status, value := value } }

/-- `raise <Error>`: the one error entry. The command ends with the error's code and `VALUE = 0`; nothing is saved,
`ACC` and memory keep what they held (R8, R107). There is no handler and nothing to return from (R109). -/
def raise (e : Status) (s : State) : Host.Outcome State Fault Refusal := respond e 0 s

/-- Reset of an idle block (R115, R116): `ACC` becomes a free value, no response is pending, the host's memory is
untouched. -/
def resetBlock (s : State) : State :=
  { s with acc := Config.freeAcc s.draws, response := none, draws := s.draws + 1 }

/-- The bytes a reset leaves in the write footprint of the command it abandoned: free values (R116, U17). -/
def scrub (draw a len : Nat) (m : Memory) : Memory :=
  m.writeBytes a ((List.range len).map (Config.freeByte draw))

end Sys2Proof.Machine
end

