-- ==== Sys2Proof/Machine/Operands.lean ====
section
/-! DEFINITION. The buffer operands of a command: which platform bytes a binding covers, when two bindings overlap,
and the `SRC[i]`, `DST[i]` of the rules (spec/20_memory.md R20, R21, R34). -/

namespace Sys2Proof

/-- The platform address is one of the binding's bytes. -/
def Binding.covers (b : Binding) (addr : Nat) : Bool := decide (b.base ≤ addr ∧ addr < b.base + b.cap)

/-- The two bound ranges, slack included, share a byte (R34). -/
def Binding.overlaps (a b : Binding) : Bool :=
  decide (0 < a.cap ∧ 0 < b.cap ∧ a.base < b.base + b.cap ∧ b.base < a.base + a.cap)

/-- The source binding a command uses (R20). -/
def Instr.source : Instr → Option Binding
  | .encLen _ => none
  | .decLen _ _ => none
  | .encodeU _ src _ => some src
  | .encodeC _ src _ => some src
  | .decodeU _ src _ => some src
  | .decodeC _ src _ => some src
  | .calcSum _ src => some src
  | .embedSum _ _ => none
  | .checkSum _ src => some src
  | .wrSum _ => none
  | .rdSum => none

/-- The destination binding a command uses (R20). -/
def Instr.destination : Instr → Option Binding
  | .encLen _ => none
  | .decLen _ _ => none
  | .encodeU _ _ dst => some dst
  | .encodeC _ _ dst => some dst
  | .decodeU _ _ dst => some dst
  | .decodeC _ _ dst => some dst
  | .calcSum _ _ => none
  | .embedSum _ dst => some dst
  | .checkSum _ _ => none
  | .wrSum _ => none
  | .rdSum => none

end Sys2Proof

namespace Sys2Proof.Machine

/-- `B[i]`: byte `i` of a bound buffer (R8, R20). -/
def byteAt (m : Memory) (b : Binding) (i : Nat) : Byte := m.read (b.base + i)

/-- `MemRead(B, i, n)` (R21). -/
def memRead (m : Memory) (b : Binding) (i n : Nat) : List Byte := m.readBytes (b.base + i) n

/-- `MemWrite(DST, i, bytes)` (R22). -/
def memWrite (m : Memory) (b : Binding) (i : Nat) (bytes : List Byte) : Memory := m.writeBytes (b.base + i) bytes

end Sys2Proof.Machine
end

