-- ==== Sys2Proof/Machine/Length.lean ====
section
/-! DEFINITION. The length calculators and the commands ENCLEN and DECLEN (spec/41_length.md). -/

namespace Sys2Proof.Machine

/-- `EncodedLen(n) = 8q + COST[r]` (R70). -/
def encodedLen (n : Nat) : Nat := groupBytes * (n / stride) + cost (n % stride)

/-- `DecodedLen(n, off)`, the division a floor (R71). -/
def decodedLen (n off : Nat) : Nat := (n - cost off) / groupBytes * stride + off

/-- ENCLEN (R70). -/
def execEncLen (n : Nat) (s : State) : Host.Outcome State Fault Refusal :=
  if lengthBound ≤ encodedLen n then raise .invalidInputLength s
  else respond .ok (BitVec.ofNat 32 (encodedLen n)) s

/-- DECLEN (R71). -/
def execDecLen (n off : Nat) (s : State) : Host.Outcome State Fault Refusal :=
  if 6 < off then raise .invalidInputLength s
  else if n < cost off then raise .invalidInputLength s
  else respond .ok (BitVec.ofNat 32 (decodedLen n off)) s

end Sys2Proof.Machine
end

