-- ==== Sys2Proof/Machine/Decoder.lean ====
section
/-! DEFINITION. The commands DECODE.C and DECODE.U (spec/43_decode.md). -/

namespace Sys2Proof.Machine

/-- The bytes DECODE writes for an encoded buffer whose remainder is `off` (R80): the full groups in order, then the
partial group. Bytes decoded from a unit outside the alphabet are this block's own (R66, U6; log 12). -/
def decodeData (off : Nat) (data : List Byte) : List Byte :=
  let q := (data.length - cost off) / groupBytes
  ((List.range q).flatMap fun g => decGroup ((data.drop (groupBytes * g)).take groupBytes)) ++
    (if off = 0 then [] else decR off ((data.drop (groupBytes * q)).take (2 * unitCount off)))

/-- The dispatcher applied to the encoded buffer a command is bound to (R56): its remainder, if DECODE.C accepts it. -/
def remainderOf (m : Memory) (src : Binding) (n : Nat) : Option Nat :=
  selectRemainder n (byteAt m src (n - 2)) (byteAt m src (n - 1))

/-- The common end of DECODE.C and DECODE.U on accepted input with remainder `off` (R80). -/
def finishDecode (off n : Nat) (src dst : Binding) (s : State) : Host.Outcome State Fault Refusal :=
  if dst.cap < decodedLen n off then .refused .destinationBeyondCapacity
  else if src.overlaps dst then .refused .overlappingBuffers
  else
    respond .ok (BitVec.ofNat 32 (decodedLen n off))
      { s with mem := memWrite s.mem dst 0 (decodeData off (memRead s.mem src 0 n)) }

/-- DECODE.C (R80). Too short a source (R21, R104) and overlapping bindings (R34) are refused on rejected input too;
room at the destination is asked for where there is a decoded length (R122; log 9). -/
def execDecodeC (n : Nat) (src dst : Binding) (s : State) : Host.Outcome State Fault Refusal :=
  if src.cap < n then .refused .sourceBeyondCapacity
  else
    match remainderOf s.mem src n with
    | none => if src.overlaps dst then .refused .overlappingBuffers else raise .invalidInputLength s
    | some off => finishDecode off n src dst s

/-- DECODE.U (R81): as DECODE.C on the input that accepts, with two bytes of slack bound (R121); refused on all other
input (U3). -/
def execDecodeU (n : Nat) (src dst : Binding) (s : State) : Host.Outcome State Fault Refusal :=
  if src.cap < n + slackDec then .refused .sourceBeyondCapacity
  else
    match remainderOf s.mem src n with
    | none => .refused .uncheckedMalformedInput
    | some off => finishDecode off n src dst s

/-- The write footprint of DECODE (R26): nothing on an error. -/
def decodeFootprint (n : Nat) (src dst : Binding) (s : State) : Nat × Nat :=
  match remainderOf s.mem src n with
  | none => (dst.base, 0)
  | some off => (dst.base, decodedLen n off)

end Sys2Proof.Machine
end

