-- ==== Sys2Proof/Machine/Checksum.lean ====
section
/-! DEFINITION. The rolling-checksum accumulator and its commands (spec/44_checksum.md). -/

namespace Sys2Proof.Machine

/-- `spread(b)` (R87, D13): the four bit pairs of a byte at the positions `SPREAD_POS`. -/
def spread (b : Byte) : Word :=
  ((b.extractLsb' 6 2).setWidth 32 <<< spreadPos 0) ||| ((b.extractLsb' 4 2).setWidth 32 <<< spreadPos 1) |||
    ((b.extractLsb' 2 2).setWidth 32 <<< spreadPos 2) ||| ((b.extractLsb' 0 2).setWidth 32 <<< spreadPos 3)

/-- `SUMSTEP(a, b)` (R87): add modulo 2^32, rotate left by 3, complement. -/
def sumStep (a : Word) (b : Byte) : Word := ~~~((a + spread b).rotateLeft checksumRotation)

/-- `SUMFOLD(a, bytes)` (R87), bytes in buffer order. -/
def sumFold : Word → List Byte → Word
  | a, [] => a
  | a, b :: rest => sumFold (sumStep a b) rest

/-- `ACC >> SHIFT[r]` (R91, R92): the `S[r]` most significant bits of `ACC`, as a field. -/
def checksumBits (acc : Word) (r : Nat) : Field := (acc >>> checksumShift r).setWidth 14

/-- The low `k` bits of a field, the rest zero. -/
def lowBits (f : Field) (k : Nat) : Field := f &&& ((1 <<< k) - 1)

/-- `F' = (F[13:s] << s) | E` (R91): the plaintext bits kept, the spare bits replaced. -/
def embedBits (f : Field) (acc : Word) (r : Nat) : Field :=
  ((f >>> spareBits r) <<< spareBits r) ||| checksumBits acc r

/-- `p = 8q + 2*(U[r] - 1)` (R91): the index of the last data unit of the encoding of `n` plaintext bytes. -/
def lastUnitIndex (n : Nat) : Nat := groupBytes * (n / stride) + 2 * (unitCount (n % stride) - 1)

/-- WRSUM (R88). -/
def execWrSum (val : Word) (s : State) : Host.Outcome State Fault Refusal :=
  respond .ok val { s with acc := val }

/-- RDSUM (R89). -/
def execRdSum (s : State) : Host.Outcome State Fault Refusal := respond .ok s.acc s

/-- CALCSUM (R90). -/
def execCalcSum (n : Nat) (src : Binding) (s : State) : Host.Outcome State Fault Refusal :=
  if src.cap < n then .refused .sourceBeyondCapacity
  else
    let acc := sumFold s.acc (memRead s.mem src 0 n)
    respond .ok acc { s with acc := acc }

/-- EMBEDSUM (R91). The room `DST_CAP >= EncodedLen(N)` is asked for whatever the remainder (R122, U13;
log 10), and its want is refused, never reported, whatever the length (R104). -/
def execEmbedSum (n : Nat) (dst : Binding) (s : State) : Host.Outcome State Fault Refusal :=
  if dst.cap < encodedLen n then .refused .destinationBeyondCapacity
  else if lengthBound ≤ encodedLen n then raise .invalidInputLength s
  else if n % stride = 0 then respond .ok 0 s
  else
    let p := lastUnitIndex n
    let f := unfield (byteAt s.mem dst p) (byteAt s.mem dst (p + 1))
    respond .ok 0 { s with mem := memWrite s.mem dst p (unit (embedBits f s.acc (n % stride))) }

/-- CHECKSUM (R92): the validation of DECODE.C, then the comparison of the `S[off]` embedded bits. Too short a source is
refused before any test (R21, R104). -/
def execCheckSum (n : Nat) (src : Binding) (s : State) : Host.Outcome State Fault Refusal :=
  if src.cap < n then .refused .sourceBeyondCapacity
  else
    match remainderOf s.mem src n with
    | none => raise .invalidInputLength s
    | some off =>
      if off = 0 then respond .ok 0 s
      else
        let f := unfield (byteAt s.mem src (n - 4)) (byteAt s.mem src (n - 3))
        if lowBits f (spareBits off) ≠ checksumBits s.acc off then raise .invalidDecodingChecksum s
        else respond .ok 0 s

/-- The write footprint of EMBEDSUM (R26): the two bytes of the last data unit, when there is a partial group. -/
def embedFootprint (n : Nat) (dst : Binding) : Nat × Nat :=
  if lengthBound ≤ encodedLen n ∨ n % stride = 0 then (dst.base, 0) else (dst.base + lastUnitIndex n, 2)

end Sys2Proof.Machine
end

