-- ==== Sys2Proof/Machine/Encoder.lean ====
section
/-! DEFINITION. The commands ENCODE.C and ENCODE.U (spec/42_encode.md). -/

namespace Sys2Proof.Machine

/-- The bytes ENCODE writes for a plaintext (R75): the full groups in order, then the partial group and its marker. -/
def encodeData (data : List Byte) : List Byte :=
  let q := data.length / stride
  let r := data.length % stride
  ((List.range q).flatMap fun g => encStride ((data.drop (stride * g)).take stride)) ++
    (if r = 0 then [] else encR r ((data.drop (stride * q)).take r) ++ [marker, BitVec.ofNat 8 r])

/-- ENCODE with `slack` bytes required behind the plaintext (R75). A broken duty is refused and never reported, whatever
the length (R34, R104, R122, U7); the slack must be bound and is not read (R26; log 17). All writes are computed from
memory as it is at issue (R30). -/
def encodeCommand (slack n : Nat) (src dst : Binding) (s : State) : Host.Outcome State Fault Refusal :=
  if src.cap < n + slack then .refused .sourceBeyondCapacity
  else if dst.cap < encodedLen n then .refused .destinationBeyondCapacity
  else if src.overlaps dst then .refused .overlappingBuffers
  else if lengthBound ≤ encodedLen n then raise .invalidInputLength s
  else
    respond .ok (BitVec.ofNat 32 (encodedLen n))
      { s with mem := memWrite s.mem dst 0 (encodeData (memRead s.mem src 0 n)) }

/-- ENCODE.U (R75, `CB = 0`): six bytes of slack (R120). -/
def execEncodeU (n : Nat) (src dst : Binding) (s : State) : Host.Outcome State Fault Refusal :=
  encodeCommand slackEnc n src dst s

/-- ENCODE.C (R75, `CB = 1`): no slack. -/
def execEncodeC (n : Nat) (src dst : Binding) (s : State) : Host.Outcome State Fault Refusal :=
  encodeCommand 0 n src dst s

/-- The write footprint of ENCODE (R26): where it starts and how many bytes it is. -/
def encodeFootprint (n : Nat) (dst : Binding) : Nat × Nat :=
  if lengthBound ≤ encodedLen n then (dst.base, 0) else (dst.base, encodedLen n)

end Sys2Proof.Machine
end

