-- ==== Sys2Proof/Machine/Dispatch.lean ====
section
/-! DEFINITION. The meaning of every command, one arm per constructor. -/

namespace Sys2Proof.Machine

def exec (i : Instr) (s : State) : Host.Outcome State Fault Refusal :=
  match i with
  | .encLen n => Sys2Proof.Machine.execEncLen n s
  | .decLen n off => Sys2Proof.Machine.execDecLen n off s
  | .encodeU n src dst => Sys2Proof.Machine.execEncodeU n src dst s
  | .encodeC n src dst => Sys2Proof.Machine.execEncodeC n src dst s
  | .decodeU n src dst => Sys2Proof.Machine.execDecodeU n src dst s
  | .decodeC n src dst => Sys2Proof.Machine.execDecodeC n src dst s
  | .calcSum n src => Sys2Proof.Machine.execCalcSum n src s
  | .embedSum n dst => Sys2Proof.Machine.execEmbedSum n dst s
  | .checkSum n src => Sys2Proof.Machine.execCheckSum n src s
  | .wrSum val => Sys2Proof.Machine.execWrSum val s
  | .rdSum => Sys2Proof.Machine.execRdSum s

end Sys2Proof.Machine
end

