-- ==== Sys2Proof/Machine/Transaction.lean ====
section
/-! DEFINITION. One turn of the host (spec/10_state.md R18): a command from issue to response, with what the host does
in between (spec/70_reset_and_hazards.md R116 to R119), a write to its own memory, or reset. -/

namespace Sys2Proof.Machine

/-- The platform bytes a command may write, as start and length (R26). -/
def writeFootprint : Instr → State → Nat × Nat
  | .encLen _, _ => (0, 0)
  | .decLen _ _, _ => (0, 0)
  | .encodeU n _ dst, _ => encodeFootprint n dst
  | .encodeC n _ dst, _ => encodeFootprint n dst
  | .decodeU n src dst, s => decodeFootprint n src dst s
  | .decodeC n src dst, s => decodeFootprint n src dst s
  | .calcSum _ _, _ => (0, 0)
  | .embedSum n dst, _ => embedFootprint n dst
  | .checkSum _ _, _ => (0, 0)
  | .wrSum _, _ => (0, 0)
  | .rdSum, _ => (0, 0)

/-- The platform address is one of an optional binding's bytes. -/
def boundCovers (b : Option Binding) (addr : Nat) : Bool :=
  match b with
  | none => false
  | some b => b.covers addr

/-- The platform address is a byte of either bound buffer. -/
def touchesBuffer (src dst : Option Binding) (addr : Nat) : Bool := boundCovers src addr || boundCovers dst addr

/-- The duty the host breaks between issue and response, if any: a second command (R118), or an access to either bound
buffer, a read or a write (R30, R119 as D20 and U15 settle it; log 23). -/
def windowRefusal (src dst : Option Binding) : List WindowAct → Option Refusal
  | [] => none
  | .issue _ :: _ => some .commandWhileBusy
  | .read a :: rest => if touchesBuffer src dst a then some .bufferTouchedWhileBusy else windowRefusal src dst rest
  | .write a _ :: rest => if touchesBuffer src dst a then some .bufferTouchedWhileBusy else windowRefusal src dst rest

/-- What the host writes to the rest of its memory between issue and response: bytes the command cannot see, so they
are written before its effect (R30; log 8). -/
def windowWrites : List WindowAct → Memory → Memory
  | [], m => m
  | .issue _ :: rest, m => windowWrites rest m
  | .read _ :: rest, m => windowWrites rest m
  | .write a b :: rest, m => windowWrites rest (m.write a b)

/-- A command that reset abandons (R116): no response, `ACC` a free value, the bytes of its write footprint free
values, all other bytes as they were. A command the model refuses stays refused (log 11). -/
def abandon (i : Instr) (s : State) : Host.Outcome State Fault Refusal :=
  match exec i s with
  | .next _ =>
    .next (resetBlock { s with mem := scrub s.draws (writeFootprint i s).1 (writeFootprint i s).2 s.mem })
  | .fault f => .fault f
  | .refused r => .refused r

/-- A decoded command with its window (R18, R116 to R119). -/
def transact (i : Instr) (window : List WindowAct) (resets : Bool) (s : State) : Host.Outcome State Fault Refusal :=
  match windowRefusal i.source i.destination window with
  | some r => .refused r
  | none =>
    let s' := { s with mem := windowWrites window s.mem }
    if resets then abandon i s' else exec i s'

/-- An illegal command word with its window (R49, R103): IllegalCommand, or nothing but the reset. Its operands and
bindings are ignored. -/
def transactIllegal (window : List WindowAct) (resets : Bool) (s : State) : Host.Outcome State Fault Refusal :=
  match windowRefusal none none window with
  | some r => .refused r
  | none =>
    let s' := { s with mem := windowWrites window s.mem }
    if resets then .next (resetBlock s') else raise .illegalCommand s'

/-- The next thing the host does, and the block's answer to it. With nothing to do the block waits. -/
def turn (s : State) : Host.Outcome State Fault Refusal :=
  match s.host with
  | [] => .next s
  | .write a b :: rest => .next { s with mem := s.mem.write a b, host := rest }
  | .reset :: rest => .next (resetBlock { s with host := rest })
  | .issue c window resets :: rest =>
    match decode c with
    | .ok i => transact i window resets { s with host := rest }
    | .error _ => transactIllegal window resets { s with host := rest }

/-- The host issuing a bare command word next, every duty of R118 to R122 kept (log 6). -/
def issueTableWord (nbits w : Nat) (s : State) : State :=
  { s with host := .issue (Command.ofTableWord nbits w) [] false :: s.host }

end Sys2Proof.Machine
end

