-- ==== Sys2Proof/Machine/Flags.lean ====
section
/-! DEFINITION. The block has no flags or condition codes (spec/10_state.md R15): the outcome of a check is the
`STATUS` of the command's own response. This file gives the response its bits (spec/30_encoding.md R53). -/

namespace Sys2Proof.Machine

/-- `STATUS[1:0]` (R53). -/
def Status.code : Status → BitVec 2
  | .ok => 0b00
  | .invalidInputLength => 0b01
  | .invalidDecodingChecksum => 0b10
  | .illegalCommand => 0b11

/-- The status a code stands for (R53); every 2-bit code is one. -/
def Status.ofCode (c : BitVec 2) : Status :=
  match c.toNat with
  | 0 => .ok
  | 1 => .invalidInputLength
  | 2 => .invalidDecodingChecksum
  | _ => .illegalCommand

end Sys2Proof.Machine
end

