-- ==== Sys2Proof/Safety.lean ====
section
/-! DEFINITION. The terms claims are stated in: the spec's tables written out, what DECODE accepts, the host's duties,
what a command reads, and what is unchanged. Nothing here is used by the machine. -/

namespace Sys2Proof.Safety

open Sys2Proof.Machine

/-- The `COST` column of the remainder table (spec/40_datapath.md R55), r = 0..6. -/
def costTable : List Nat := [0, 4, 6, 6, 8, 8, 10]

/-- The `U` column (R55). -/
def unitTable : List Nat := [0, 1, 2, 2, 3, 3, 4]

/-- The `S` column (R55). -/
def spareTable : List Nat := [0, 6, 12, 4, 10, 2, 8]

/-- The `SHIFT` column (R55). -/
def shiftTable : List Nat := [0, 26, 20, 28, 22, 30, 24]

/-- `EncodedLen(n)` from the table (R70). -/
def encodedLength (n : Nat) : Nat := 8 * (n / 7) + costTable.getD (n % 7) 0

/-- `DecodedLen(n, off)` from the table (R71). -/
def decodedLength (n off : Nat) : Nat := (n - costTable.getD off 0) / 8 * 7 + off

/-- The first plaintext length whose encoding does not fit 32 bits (R70). -/
def firstTooLong : Nat := 0xDFFFFFFD

/-- No byte belongs to both bound ranges (R34). -/
def Apart (a b : Binding) : Prop :=
  a.cap = 0 ∨ b.cap = 0 ∨ a.base + a.cap ≤ b.base ∨ b.base + b.cap ≤ a.base

/-- The tests of DECODE.C pass on `SRC[0 .. n-1]` and select remainder `off` (R80). -/
def Accepts (m : Memory) (src : Binding) (n off : Nat) : Prop :=
  (n = 0 ∧ off = 0) ∨
  (2 ≤ n ∧
    ((byteAt m src (n - 2) = 0x3D ∧ off = (byteAt m src (n - 1)).toNat ∧ 1 ≤ off ∧ off ≤ 6) ∨
      (byteAt m src (n - 2) ≠ 0x3D ∧ off = 0)) ∧
    costTable.getD off 0 ≤ n ∧ (n - costTable.getD off 0) % 8 = 0)

/-- Bytes outside the `len` bytes from `a` up read as before. -/
def SameOutside (m m' : Memory) (a len : Nat) : Prop := ∀ x, x < a ∨ a + len ≤ x → m'.read x = m.read x

/-- The duties the host has toward one command (R118 to R122, R34) that its operands and memory decide. -/
def HostDuties : Instr → State → Prop
  | .encLen _, _ => True
  | .decLen _ _, _ => True
  | .encodeU n src dst, _ => n + 6 ≤ src.cap ∧ encodedLength n ≤ dst.cap ∧ Apart src dst
  | .encodeC n src dst, _ => n ≤ src.cap ∧ encodedLength n ≤ dst.cap ∧ Apart src dst
  | .decodeU n src dst, s =>
    n + 2 ≤ src.cap ∧ (∃ off, Accepts s.mem src n off ∧ decodedLength n off ≤ dst.cap) ∧ Apart src dst
  | .decodeC n src dst, s =>
    n ≤ src.cap ∧ (∀ off, Accepts s.mem src n off → decodedLength n off ≤ dst.cap) ∧ Apart src dst
  | .calcSum n src, _ => n ≤ src.cap
  | .embedSum n dst, _ => encodedLength n ≤ dst.cap
  | .checkSum n src, _ => n ≤ src.cap
  | .wrSum _, _ => True
  | .rdSum, _ => True

/-- The platform bytes a command's outcome may depend on, as start and length (R26): slack is never among them. -/
def readFootprint : Instr → Nat × Nat
  | .encLen _ => (0, 0)
  | .decLen _ _ => (0, 0)
  | .encodeU n src _ => (src.base, n)
  | .encodeC n src _ => (src.base, n)
  | .decodeU n src _ => (src.base, n)
  | .decodeC n src _ => (src.base, n)
  | .calcSum n src => (src.base, n)
  | .embedSum n dst => (dst.base + lastUnitIndex n, if n % 7 = 0 then 0 else 2)
  | .checkSum n src => (src.base + (n - 4), min n 4)
  | .wrSum _ => (0, 0)
  | .rdSum => (0, 0)

/-- A host act between issue and response that breaks a duty (R118; R119, D20 and U15, log 23). -/
def Breaks (src dst : Option Binding) : WindowAct → Prop
  | .issue _ => True
  | .read a => ∃ b, (src = some b ∨ dst = some b) ∧ b.base ≤ a ∧ a < b.base + b.cap
  | .write a _ => ∃ b, (src = some b ∨ dst = some b) ∧ b.base ≤ a ∧ a < b.base + b.cap

/-- A code unit of the alphabet (spec/30_encoding.md R35). -/
def InAlphabet (hi lo : Byte) : Prop := 0x4E00 ≤ (hi ++ lo : CodeUnit) ∧ (hi ++ lo : CodeUnit) ≤ 0x8DFF

/-- A well-formed encoded buffer of `n` plaintext bytes (R42): its length, its units, its marker. -/
def WellFormedBuffer (n : Nat) (e : List Byte) : Prop :=
  e.length = encodedLength n ∧
  (∀ k, 2 * k + 2 ≤ 8 * (n / 7) + 2 * unitTable.getD (n % 7) 0 →
    InAlphabet (e.getD (2 * k) 0) (e.getD (2 * k + 1) 0)) ∧
  (n % 7 ≠ 0 → e.drop (e.length - 2) = [0x3D, BitVec.ofNat 8 (n % 7)])

/-- Commands run one after the other, each issued when the one before has answered (R118). -/
def execAll : List Instr → State → Host.Outcome State Fault Refusal
  | [], s => .next s
  | i :: rest, s =>
    match exec i s with
    | .next t => execAll rest t
    | .fault f => .fault f
    | .refused r => .refused r

/-- The state invariant: memory is in its canonical form. -/
def MemoryCanonical (s : State) : Prop := s.mem.wf = true

end Sys2Proof.Safety
end

