-- ==== Sys2Proof/Certificates/Slice0/Obligations.lean ====
section
/-! DEFINITION. The statements for the provers. Each docstring names the rule of spec/ it formalises. -/

open Sys2Proof Sys2Proof.Machine Sys2Proof.Safety

/-! ### Commands: encoding and the step -/

/-- R47: words written out from the opcode map decode to the commands they stand for, operands taken from their
fields. -/
def Obligations.OpcodeMapWordsDecode : Prop :=
  let c : Command := { cmd := 0, n := 10, off := 3, val := 0x12345678, src := ⟨0, 16⟩, dst := ⟨32, 16⟩ }
  decode { c with cmd := 0b00000000 } = .ok (.encLen 10) ∧
  decode { c with cmd := 0b00000001 } = .ok (.decLen 10 3) ∧
  decode { c with cmd := 0b00000010 } = .ok (.encodeU 10 ⟨0, 16⟩ ⟨32, 16⟩) ∧
  decode { c with cmd := 0b00010010 } = .ok (.encodeC 10 ⟨0, 16⟩ ⟨32, 16⟩) ∧
  decode { c with cmd := 0b00000011 } = .ok (.decodeU 10 ⟨0, 16⟩ ⟨32, 16⟩) ∧
  decode { c with cmd := 0b00010011 } = .ok (.decodeC 10 ⟨0, 16⟩ ⟨32, 16⟩) ∧
  decode { c with cmd := 0b00000100 } = .ok (.calcSum 10 ⟨0, 16⟩) ∧
  decode { c with cmd := 0b00000101 } = .ok (.embedSum 10 ⟨32, 16⟩) ∧
  decode { c with cmd := 0b00000110 } = .ok (.checkSum 10 ⟨0, 16⟩) ∧
  decode { c with cmd := 0b00000111 } = .ok (.wrSum 0x12345678) ∧
  decode { c with cmd := 0b00001000 } = .ok .rdSum

/-- R47, R48, R12: the record of a well-formed command decodes to that command, with every operand at every value its
field can hold. -/
def Obligations.DecodeOfEncodeIsIdentity : Prop :=
  ∀ i : Instr, i.wellFormed = true → decode (encode i) = .ok i

/-- R48, R12: what decodes is well-formed, and its record has the same command word. -/
def Obligations.DecodedCommandKeepsItsWord : Prop :=
  ∀ (c : Command) (i : Instr), decode c = .ok i → i.wellFormed = true ∧ (encode i).cmd = c.cmd

/-- R49: the legal command words are exactly the eleven, whatever the operands. -/
def Obligations.ElevenLegalWords : Prop :=
  ∀ c : Command, (∃ i, decode c = .ok i) ↔
    c.cmd ∈ ([0x00, 0x01, 0x02, 0x12, 0x03, 0x13, 0x04, 0x05, 0x06, 0x07, 0x08] : List (BitVec 8))

/-- R103: IllegalCommand has one cause, a word that matches no row. Such a command is answered with code 3 and value 0
and changes nothing, its operands and bindings ignored; no legal command answers it. -/
def Obligations.IllegalCommandHasOneCause : Prop :=
  (∀ (s : State) (c : Command) (rest : List HostAction), s.host = .issue c [] false :: rest →
    c.cmd ∉ ([0x00, 0x01, 0x02, 0x12, 0x03, 0x13, 0x04, 0x05, 0x06, 0x07, 0x08] : List (BitVec 8)) →
    step s = .next { s with host := rest, response := some ⟨.illegalCommand, 0⟩ }) ∧
  (∀ (i : Instr) (s t : State), exec i s = .next t → ∃ r, t.response = some r ∧ r.status ≠ .illegalCommand)

/-- R18, R14: when the host issues a record that decodes to a command and does nothing before the response, the step
is that command's meaning at the state from which the issue is taken. -/
def Obligations.StepRunsIssuedCommand : Prop :=
  ∀ (s : State) (c : Command) (rest : List HostAction) (i : Instr),
    s.host = .issue c [] false :: rest → decode c = .ok i → step s = exec i { s with host := rest }

/-- R53: the four status codes, and that every two-bit code is one of them. -/
def Obligations.StatusCodesOfResponse : Prop :=
  Status.code .ok = 0b00 ∧ Status.code .invalidInputLength = 0b01 ∧ Status.code .invalidDecodingChecksum = 0b10 ∧
    Status.code .illegalCommand = 0b11 ∧ ∀ c : BitVec 2, (Status.ofCode c).code = c

/-! ### Reset, the host, and the window between issue and response -/

/-- R116: after reset the block is idle with no response pending. That no host action is listed and that memory is
canonical is the model's (log 3, log 5). -/
def Obligations.ResetLeavesBlockIdle : Prop :=
  State.reset.host = [] ∧ State.reset.response = none ∧ MemoryCanonical State.reset

/-- R18, log 5: with nothing to do the block waits, and a write of the host changes that byte alone. -/
def Obligations.IdleBlockWaits : Prop :=
  (∀ s : State, s.host = [] → step s = .next s) ∧
  (∀ (s : State) (a : Nat) (b : Byte) (rest : List HostAction), s.host = .write a b :: rest →
    ∃ t, step s = .next t ∧ t = { s with mem := t.mem, host := rest } ∧ t.mem.read a = b ∧ SameOutside s.mem t.mem a 1)

/-- R116: reset leaves buffers untouched and no response; a reset during a command under its duties gives no response
and leaves every byte outside the command's write footprint untouched. -/
def Obligations.ResetKeepsBuffers : Prop :=
  (∀ (s : State) (rest : List HostAction), s.host = .reset :: rest →
    ∃ t, step s = .next t ∧ t.mem = s.mem ∧ t.response = none ∧ t.host = rest) ∧
  (∀ (s : State) (c : Command) (rest : List HostAction) (i : Instr), s.host = .issue c [] true :: rest →
    decode c = .ok i → HostDuties i s →
    ∃ t, step s = .next t ∧ t.response = none ∧ t.host = rest ∧
      SameOutside s.mem t.mem (writeFootprint i s).1 (writeFootprint i s).2)

/-- R118: a command issued before the response of the previous one is refused, wherever in the window it stands and
whatever the two words are. That it is refused by the name commandWhileBusy where it is the first act, whatever other
duties are broken, is the model's choice (log 8). -/
def Obligations.CommandWhileBusyRefused : Prop :=
  ∀ (s : State) (c c' : Command) (w : List WindowAct) (resets : Bool) (rest : List HostAction),
    s.host = .issue c w resets :: rest → .issue c' ∈ w →
    (∃ r, step s = .refused r) ∧ (w.head? = some (.issue c') → step s = .refused .commandWhileBusy)

/-- R118, R119, R30, for a record that decodes: a window in which the host breaks a duty is refused, wherever in the
window that is; one in which it breaks none, no reset following, leaves the command its meaning. R118 and R119 say only
refuse: the two names, and that harmless writes of the window stand before the command's effect, are the model's choice
(log 8). That a read of the source breaks a duty is D20's and U15's, wider than R119 (log 23). -/
def Obligations.WindowDecidesRefusal : Prop :=
  ∀ (s : State) (c : Command) (w : List WindowAct) (resets : Bool) (rest : List HostAction) (i : Instr),
    s.host = .issue c w resets :: rest → decode c = .ok i →
    ((∃ act ∈ w, Breaks i.source i.destination act) →
      step s = .refused .commandWhileBusy ∨ step s = .refused .bufferTouchedWhileBusy) ∧
    ((∀ act ∈ w, ¬ Breaks i.source i.destination act) → resets = false →
      step s = exec i { s with host := rest, mem := windowWrites w s.mem } ∧
      ∀ x, (∀ b ∈ i.source, b.base ≤ x → x < b.base + b.cap → (windowWrites w s.mem).read x = s.mem.read x) ∧
        (∀ b ∈ i.destination, b.base ≤ x → x < b.base + b.cap → (windowWrites w s.mem).read x = s.mem.read x))

/-! ### Length calculators -/

/-- R70, every operand a command record can carry and beyond: the length, or the error exactly from 0xDFFFFFFD up.
Nothing but the response changes. -/
def Obligations.EncLenResult : Prop :=
  ∀ (n : Nat) (s : State),
    (n < firstTooLong →
      exec (.encLen n) s = .next { s with response := some ⟨.ok, BitVec.ofNat 32 (encodedLength n)⟩ } ∧
      encodedLength n < 2 ^ 32) ∧
    (firstTooLong ≤ n → exec (.encLen n) s = .next { s with response := some ⟨.invalidInputLength, 0⟩ } ∧
      2 ^ 32 ≤ encodedLength n)

/-- R71: the length by the floored division, or the error for offset 7 and for a length below the offset's cost.
Nothing but the response changes, and the result never exceeds `n`. -/
def Obligations.DecLenResult : Prop :=
  ∀ (n off : Nat) (s : State), off ≤ 7 →
    ((off = 7 ∨ n < costTable.getD off 0) →
      exec (.decLen n off) s = .next { s with response := some ⟨.invalidInputLength, 0⟩ }) ∧
    (off ≤ 6 → costTable.getD off 0 ≤ n →
      exec (.decLen n off) s = .next { s with response := some ⟨.ok, BitVec.ofNat 32 (decodedLength n off)⟩ } ∧
      decodedLength n off ≤ n)

/-- R72: (a) DECLEN of ENCLEN's result is the length; (b) encoded lengths are even; (c) ENCODE's bytes are that many;
(d) no marker for whole strides; (e) length and remainder determine the plaintext length, the length alone does not. -/
def Obligations.LengthLaws : Prop :=
  (∀ (n : Nat) (s : State), n < firstTooLong →
    exec (.decLen (encodedLength n) (n % 7)) s = .next { s with response := some ⟨.ok, BitVec.ofNat 32 n⟩ }) ∧
  (∀ n, encodedLength n % 2 = 0) ∧
  (∀ data : List Byte, (encodeData data).length = encodedLength data.length) ∧
  (∀ n, n % 7 = 0 → encodedLength n = n / 7 * 8) ∧
  (∀ n m, encodedLength n = encodedLength m → n % 7 = m % 7 → n = m) ∧
  encodedLength 2 = encodedLength 3 ∧ encodedLength 4 = encodedLength 5 ∧ encodedLength 4 = encodedLength 7

/-- R55: the remainder table's columns in closed form, and that the machine's tables are these; all zero at 0. -/
def Obligations.RemainderTableClosedForm : Prop :=
  (unitCount 0 = 0 ∧ cost 0 = 0 ∧ spareBits 0 = 0 ∧ checksumShift 0 = 0) ∧
  ∀ r, 1 ≤ r → r ≤ 6 →
    unitTable.getD r 0 = (8 * r + 13) / 14 ∧ costTable.getD r 0 = 2 * unitTable.getD r 0 + 2 ∧
    spareTable.getD r 0 = 14 * unitTable.getD r 0 - 8 * r ∧ shiftTable.getD r 0 = 32 - spareTable.getD r 0 ∧
    unitCount r = unitTable.getD r 0 ∧ cost r = costTable.getD r 0 ∧ spareBits r = spareTable.getD r 0 ∧
    checksumShift r = shiftTable.getD r 0

/-! ### The datapath -/

/-- R57: the fields are the slices of the 56-bit big-endian stride, and equal the shift form. -/
def Obligations.FieldsAreSlicesOfStride : Prop :=
  ∀ b0 b1 b2 b3 b4 b5 b6 : Byte,
    let b56 : BitVec 56 := b0 ++ b1 ++ b2 ++ b3 ++ b4 ++ b5 ++ b6
    let w (b : Byte) : Field := b.setWidth 14
    fields b0 b1 b2 b3 b4 b5 b6 =
      (b56.extractLsb' 42 14, b56.extractLsb' 28 14, b56.extractLsb' 14 14, b56.extractLsb' 0 14) ∧
    fields b0 b1 b2 b3 b4 b5 b6 =
      ((w b0 <<< 6) ||| (w b1 >>> 2),
       ((w b1 &&& 0x03) <<< 12) ||| (w b2 <<< 4) ||| (w b3 >>> 4),
       ((w b3 &&& 0x0F) <<< 10) ||| (w b4 <<< 2) ||| (w b5 >>> 6),
       ((w b5 &&& 0x3F) <<< 8) ||| w b6)

/-- R58, with R35 and R60: a field's unit is `0x4E00` plus the field and lies in the alphabet, its high byte is `0x4E`
plus the field's high bits, its low byte the field's low byte, and `UNFIELD` gives the field back. -/
def Obligations.UnitRoundTrip : Prop :=
  ∀ f : Field, ∃ hi lo : Byte, unit f = [hi, lo] ∧ (hi ++ lo : CodeUnit).toNat = 0x4E00 + f.toNat ∧ InAlphabet hi lo ∧
    hi = 0x4E + (f.extractLsb' 8 6).setWidth 8 ∧ lo = f.extractLsb' 0 8 ∧ unfield hi lo = f

/-- R66, R60 (a value for units outside the alphabet is this block's own, U6, log 12): `UNFIELD` is the bias subtracted
modulo 2^16 with the top two bits dropped, as a number, for every pair of bytes. -/
def Obligations.UnfieldSubtractsBias : Prop :=
  ∀ hi lo : Byte, (unfield hi lo).toNat = (hi.toNat * 256 + lo.toNat + (65536 - 0x4E00)) % 65536 % 16384

/-- R61: the decoded bytes are the slices of the four unbiased fields put together. -/
def Obligations.DecodedBytesAreSlices : Prop :=
  ∀ e0 e1 e2 e3 e4 e5 e6 e7 : Byte,
    let b56 : BitVec 56 := unfield e0 e1 ++ unfield e2 e3 ++ unfield e4 e5 ++ unfield e6 e7
    dec8 e0 e1 e2 e3 e4 e5 e6 e7 = (List.range 7).map fun i => b56.extractLsb' (48 - 8 * i) 8

/-- R64: the encoder and decoder of a full group are inverse, on all strides one way and on all groups of alphabet
units the other way. -/
def Obligations.GroupCodecIsBijection : Prop :=
  (∀ b : List Byte, b.length = 7 → decGroup (encStride b) = b) ∧
  (∀ e : List Byte, e.length = 8 →
    InAlphabet (e.getD 0 0) (e.getD 1 0) → InAlphabet (e.getD 2 0) (e.getD 3 0) →
    InAlphabet (e.getD 4 0) (e.getD 5 0) → InAlphabet (e.getD 6 0) (e.getD 7 0) →
    encStride (decGroup e) = e)

/-- R63: the partial group decodes to its bytes, whatever its spare bits hold: `last` is the last unit's field with any
`S[r]` low bits. -/
def Obligations.PartialGroupInverse : Prop :=
  ∀ (r : Nat) (b : List Byte), 1 ≤ r → r ≤ 6 → b.length = r →
    decR r (encR r b) = b ∧
    ∀ k : Field, k.toNat < 2 ^ spareTable.getD r 0 →
      decR r ((encR r b).take (2 * (unitTable.getD r 0 - 1)) ++
        unit (unfield ((encR r b).getD (2 * (unitTable.getD r 0 - 1)) 0)
          ((encR r b).getD (2 * (unitTable.getD r 0 - 1) + 1) 0) ||| k)) = b

/-- R62, R38: the spare bits of a partial group's last unit are zero after ENCODE. -/
def Obligations.SpareBitsAreZero : Prop :=
  ∀ (r : Nat) (b : List Byte), 1 ≤ r → r ≤ 6 → b.length = r →
    (unfield ((encR r b).getD (2 * (unitTable.getD r 0 - 1)) 0)
      ((encR r b).getD (2 * (unitTable.getD r 0 - 1) + 1) 0)).toNat % 2 ^ spareTable.getD r 0 = 0

/-- R62, R65: the partial group by the zero-padded stride equals the loop over the rows of the per-byte table. -/
def Obligations.PartialGroupByRowTable : Prop :=
  ∀ (r : Nat) (b : List Byte), 1 ≤ r → r ≤ 6 → b.length = r → encR r b = encRByRows r b

/-! ### ENCODE -/

/-- R75, both variants: the groups, the partial group and the marker at their indices, nothing else written, no other
state changed; under the same duties the length error from 0xDFFFFFFD up; the refusals of too small a capacity, for
every length. -/
def Obligations.EncodeResult : Prop :=
  ∀ (i : Instr) (slack n : Nat) (src dst : Binding) (s : State),
    (i = .encodeC n src dst ∧ slack = 0) ∨ (i = .encodeU n src dst ∧ slack = 6) →
    (firstTooLong ≤ n → n + slack ≤ src.cap → encodedLength n ≤ dst.cap → Apart src dst →
      exec i s = .next { s with response := some ⟨.invalidInputLength, 0⟩ }) ∧
    (n < firstTooLong → n + slack ≤ src.cap → encodedLength n ≤ dst.cap → Apart src dst →
      ∃ t, exec i s = .next t ∧
        t = { s with mem := t.mem, response := some ⟨.ok, BitVec.ofNat 32 (encodedLength n)⟩ } ∧
        (∀ g, g < n / 7 → memRead t.mem dst (8 * g) 8 = encStride (memRead s.mem src (7 * g) 7)) ∧
        (n % 7 ≠ 0 →
          memRead t.mem dst (8 * (n / 7)) (2 * unitTable.getD (n % 7) 0) =
            encR (n % 7) (memRead s.mem src (7 * (n / 7)) (n % 7)) ∧
          memRead t.mem dst (8 * (n / 7) + 2 * unitTable.getD (n % 7) 0) 2 = [0x3D, BitVec.ofNat 8 (n % 7)]) ∧
        SameOutside s.mem t.mem dst.base (encodedLength n)) ∧
    ((src.cap < n + slack ∨ dst.cap < encodedLength n) → ∃ r, exec i s = .refused r)

/-- R76 (a), (b), (d), (e), R42: what ENCODE leaves at the destination is a well-formed encoded buffer. -/
def Obligations.EncodeWritesWellFormedBuffer : Prop :=
  ∀ (n : Nat) (src dst : Binding) (s : State),
    n < firstTooLong → n ≤ src.cap → encodedLength n ≤ dst.cap → Apart src dst →
    ∃ t, exec (.encodeC n src dst) s = .next t ∧ WellFormedBuffer n (memRead t.mem dst 0 (encodedLength n))

/-- R76 (c): the two variants give the same bytes and the same response for the same plaintext, whatever the slack and
the rest of memory hold. -/
def Obligations.EncodeVariantsAgree : Prop :=
  ∀ (n : Nat) (src dst : Binding) (s s' : State),
    n < firstTooLong → n + 6 ≤ src.cap → encodedLength n ≤ dst.cap → Apart src dst →
    (∀ k, k < n → byteAt s.mem src k = byteAt s'.mem src k) →
    ∃ t t', exec (.encodeC n src dst) s = .next t ∧ exec (.encodeU n src dst) s' = .next t' ∧
      t.response = t'.response ∧
      memRead t.mem dst 0 (encodedLength n) = memRead t'.mem dst 0 (encodedLength n)

/-- R76 (f): a plaintext cut after a multiple of 7 bytes encodes to the two encodings put together. -/
def Obligations.EncodeOfChunks : Prop :=
  ∀ x y : List Byte, x.length % 7 = 0 → encodeData (x ++ y) = encodeData x ++ encodeData y

/-- R40: a non-empty encoded buffer without a marker never shows the marker byte at its second-to-last index. -/
def Obligations.MarkerIsNeverData : Prop :=
  ∀ data : List Byte, data.length % 7 = 0 → data ≠ [] →
    (encodeData data).getD ((encodeData data).length - 2) 0 ≠ 0x3D

/-! ### DECODE -/

/-- R80, and the accepted input of R81: the groups and the partial group at their indices, nothing else written, no
other state changed. The bytes decoded from a unit outside the alphabet are this block's own (R66, U6, log 12). -/
def Obligations.DecodeResult : Prop :=
  ∀ (i : Instr) (slack n off : Nat) (src dst : Binding) (s : State),
    (i = .decodeC n src dst ∧ slack = 0) ∨ (i = .decodeU n src dst ∧ slack = 2) →
    n + slack ≤ src.cap → Accepts s.mem src n off → decodedLength n off ≤ dst.cap → Apart src dst →
    ∃ t, exec i s = .next t ∧
      t = { s with mem := t.mem, response := some ⟨.ok, BitVec.ofNat 32 (decodedLength n off)⟩ } ∧
      (∀ g, g < (n - costTable.getD off 0) / 8 →
        memRead t.mem dst (7 * g) 7 = decGroup (memRead s.mem src (8 * g) 8)) ∧
      (off ≠ 0 →
        memRead t.mem dst (7 * ((n - costTable.getD off 0) / 8)) off =
          decR off (memRead s.mem src (8 * ((n - costTable.getD off 0) / 8)) (2 * unitTable.getD off 0))) ∧
      SameOutside s.mem t.mem dst.base (decodedLength n off)

/-- R80, R101, R104, R34: under its duties DECODE.C answers InvalidInputLength when its tests select no remainder, and
then changes nothing. With the source unbound or the bindings overlapping it is refused whatever the tests say, with
too little room on accepted input. That rejected input asks for no room, and that whole bound ranges are compared, are
the model's readings (log 9, log 4). -/
def Obligations.DecodeCheckedErrors : Prop :=
  ∀ (n : Nat) (src dst : Binding) (s : State),
    (n ≤ src.cap → Apart src dst → (∀ off, ¬ Accepts s.mem src n off) →
      exec (.decodeC n src dst) s = .next { s with response := some ⟨.invalidInputLength, 0⟩ }) ∧
    ((src.cap < n ∨ ¬ Apart src dst) → ∃ r, exec (.decodeC n src dst) s = .refused r) ∧
    (∀ off, Accepts s.mem src n off → dst.cap < decodedLength n off → ∃ r, exec (.decodeC n src dst) s = .refused r)

/-- R81: DECODE.U is DECODE.C on the input its tests accept where the slack is bound, and refused elsewhere. Which name
a refusal gets where several duties are broken at once (malformed input before overlap, the slack before both) is the
model's choice (log 21). -/
def Obligations.DecodeUncheckedFollowsChecked : Prop :=
  ∀ (n : Nat) (src dst : Binding) (s : State),
    (n + 2 ≤ src.cap → ∀ off, Accepts s.mem src n off →
      exec (.decodeU n src dst) s = exec (.decodeC n src dst) s) ∧
    (n + 2 ≤ src.cap → (∀ off, ¬ Accepts s.mem src n off) →
      exec (.decodeU n src dst) s = .refused .uncheckedMalformedInput) ∧
    (src.cap < n + 2 → exec (.decodeU n src dst) s = .refused .sourceBeyondCapacity)

/-- R82 (a), (b): ENCODE by either variant and then DECODE by either variant of what it wrote answers `OK n` and gives
the plaintext back. -/
def Obligations.DecodeOfEncodeIsPlaintext : Prop :=
  ∀ (n : Nat) (src mid mid' dst : Binding) (s : State) (ie id : Instr),
    ((ie = .encodeC n src mid ∧ n ≤ src.cap) ∨ (ie = .encodeU n src mid ∧ n + 6 ≤ src.cap)) →
    ((id = .decodeC (encodedLength n) mid' dst ∧ encodedLength n ≤ mid'.cap) ∨
      (id = .decodeU (encodedLength n) mid' dst ∧ encodedLength n + 2 ≤ mid'.cap)) →
    n < firstTooLong → encodedLength n ≤ mid.cap → Apart src mid → mid'.base = mid.base →
    n ≤ dst.cap → Apart mid' dst →
    ∃ t u, exec ie s = .next t ∧ exec id t = .next u ∧ u.response = some ⟨.ok, BitVec.ofNat 32 n⟩ ∧
      memRead u.mem dst 0 n = memRead s.mem src 0 n

/-- R82 (e): an encoded buffer cut after whole groups, its partial group and marker in the second part, decodes to the
two decodings put together. -/
def Obligations.DecodeOfChunks : Prop :=
  ∀ (off : Nat) (x y : List Byte), off ≤ 6 → x.length % 8 = 0 → costTable.getD off 0 ≤ y.length →
    decodeData off (x ++ y) = decodeData 0 x ++ decodeData off y

/-! ### The accumulator -/

/-- R87: `spread` and `SUMSTEP` as numbers; the four pairs at 24, 16, 8, 0 are the spec's D13 (log 13). -/
def Obligations.SumStepArithmetic : Prop :=
  ∀ (a : Word) (b : Byte),
    (spread b).toNat =
      b.toNat / 64 * 2 ^ 24 + b.toNat / 16 % 4 * 2 ^ 16 + b.toNat / 4 % 4 * 2 ^ 8 + b.toNat % 4 ∧
    (sumStep a b).toNat =
      2 ^ 32 - 1 -
        ((a.toNat + (spread b).toNat) % 2 ^ 32 * 8 % 2 ^ 32 + (a.toNat + (spread b).toNat) % 2 ^ 32 / 2 ^ 29)

/-- R87, R94: a step is injective in the accumulator and in the byte, so a change of one plaintext byte changes the
accumulator after every later byte. -/
def Obligations.OneByteChangesAccumulator : Prop :=
  ∀ (a : Word) (x y : List Byte) (b b' : Byte), b ≠ b' →
    sumFold a (x ++ b :: y) ≠ sumFold a (x ++ b' :: y)

/-- R88: WRSUM loads any value and answers it, nothing else changed. -/
def Obligations.WrSumResult : Prop :=
  ∀ (val : Word) (s : State), exec (.wrSum val) s = .next { s with acc := val, response := some ⟨.ok, val⟩ }

/-- R89: RDSUM answers the accumulator, nothing else changed. The value after reset is free (log 1). -/
def Obligations.RdSumResult : Prop :=
  ∀ s : State, exec .rdSum s = .next { s with response := some ⟨.ok, s.acc⟩ }

/-- R90: CALCSUM folds the bytes in buffer order into the accumulator and answers it, nothing else changed; folding a
block and then the next equals folding both at once, for any cut. -/
def Obligations.CalcSumResult : Prop :=
  ∀ (n : Nat) (src : Binding) (s : State), n ≤ src.cap →
    exec (.calcSum n src) s =
      .next { s with
        acc := (memRead s.mem src 0 n).foldl sumStep s.acc,
        response := some ⟨.ok, (memRead s.mem src 0 n).foldl sumStep s.acc⟩ } ∧
    ∀ k, k ≤ n → ∀ tail : Binding, tail.base = src.base + k → n - k ≤ tail.cap →
      execAll [.calcSum k src, .calcSum (n - k) tail] s = exec (.calcSum n src) s

/-- R52: `CalcSum(seed, block)` as WRSUM, CALCSUM, RDSUM answers the fold of the block from the seed. -/
def Obligations.CalcSumPseudoOperation : Prop :=
  ∀ (seed : Word) (n : Nat) (src : Binding) (s : State), n ≤ src.cap →
    ∃ t, execAll [.wrSum seed, .calcSum n src, .rdSum] s = .next t ∧
      t.response = some ⟨.ok, (memRead s.mem src 0 n).foldl sumStep seed⟩ ∧ t.mem = s.mem

/-- R91: EMBEDSUM replaces the `S[r]` low bits of the last unit's field by the top `S[r]` bits of the accumulator and
changes nothing else; nothing at all for whole strides; the length error from 0xDFFFFFFD up; where there is a partial
group, the refusal of too small a destination, for every length. -/
def Obligations.EmbedSumResult : Prop :=
  ∀ (n : Nat) (dst : Binding) (s : State),
    (firstTooLong ≤ n → encodedLength n ≤ dst.cap →
      exec (.embedSum n dst) s = .next { s with response := some ⟨.invalidInputLength, 0⟩ }) ∧
    (n % 7 ≠ 0 → dst.cap < encodedLength n → ∃ r, exec (.embedSum n dst) s = .refused r) ∧
    (n < firstTooLong → encodedLength n ≤ dst.cap → n % 7 = 0 →
      exec (.embedSum n dst) s = .next { s with response := some ⟨.ok, 0⟩ }) ∧
    (n < firstTooLong → encodedLength n ≤ dst.cap → n % 7 ≠ 0 →
      let p := 8 * (n / 7) + 2 * (unitTable.getD (n % 7) 0 - 1)
      let k := spareTable.getD (n % 7) 0
      let f := unfield (byteAt s.mem dst p) (byteAt s.mem dst (p + 1))
      ∃ t, exec (.embedSum n dst) s = .next t ∧ t = { s with mem := t.mem, response := some ⟨.ok, 0⟩ } ∧
        SameOutside s.mem t.mem (dst.base + p) 2 ∧
        ∃ f' : Field, f'.toNat = f.toNat / 2 ^ k * 2 ^ k + s.acc.toNat / 2 ^ shiftTable.getD (n % 7) 0 ∧
          memRead t.mem dst p 2 = unit f')

/-- R91: EMBEDSUM twice with the same accumulator leaves what EMBEDSUM once leaves, since the bits are replaced. -/
def Obligations.EmbedTwiceIsOnce : Prop :=
  ∀ (n : Nat) (dst : Binding) (s : State), n < firstTooLong → encodedLength n ≤ dst.cap →
    ∃ t u, exec (.embedSum n dst) s = .next t ∧ exec (.embedSum n dst) t = .next u ∧
      u.response = t.response ∧ ∀ x, u.mem.read x = t.mem.read x

/-- R92, R106: with its source bound, CHECKSUM runs the tests of DECODE.C first, whatever the accumulator; with no partial group it answers
`OK`; else it compares the embedded bits with the accumulator's top bits. It changes nothing. -/
def Obligations.CheckSumResult : Prop :=
  ∀ (n : Nat) (src : Binding) (s : State),
    (n ≤ src.cap → (∀ off, ¬ Accepts s.mem src n off) →
      exec (.checkSum n src) s = .next { s with response := some ⟨.invalidInputLength, 0⟩ }) ∧
    (n ≤ src.cap → Accepts s.mem src n 0 →
      exec (.checkSum n src) s = .next { s with response := some ⟨.ok, 0⟩ }) ∧
    (∀ off, n ≤ src.cap → Accepts s.mem src n off → off ≠ 0 →
      let f := unfield (byteAt s.mem src (n - 4)) (byteAt s.mem src (n - 3))
      (f.toNat % 2 ^ spareTable.getD off 0 = s.acc.toNat / 2 ^ shiftTable.getD off 0 →
        exec (.checkSum n src) s = .next { s with response := some ⟨.ok, 0⟩ }) ∧
      (f.toNat % 2 ^ spareTable.getD off 0 ≠ s.acc.toNat / 2 ^ shiftTable.getD off 0 →
        exec (.checkSum n src) s = .next { s with response := some ⟨.invalidDecodingChecksum, 0⟩ }))

/-- R94: where CHECKSUM answers `OK` on a partial group, flipping any one embedded bit makes it answer
InvalidDecodingChecksum. -/
def Obligations.FlippedChecksumBitIsCaught : Prop :=
  ∀ (n off b : Nat) (src : Binding) (s t : State),
    n ≤ src.cap → Accepts s.mem src n off → off ≠ 0 → b < spareTable.getD off 0 →
    exec (.checkSum n src) s = .next t → t.response = some ⟨.ok, 0⟩ →
    let f := unfield (byteAt s.mem src (n - 4)) (byteAt s.mem src (n - 3))
    let s' := { s with mem := memWrite s.mem src (n - 4) (unit (f ^^^ (1 <<< b))) }
    exec (.checkSum n src) s' = .next { s' with response := some ⟨.invalidDecodingChecksum, 0⟩ }

/-- R93, R82 (c): a chunk folded, encoded and given its checksum, then decoded, folded and checked from the same seed,
gives the plaintext back and passes the check. -/
def Obligations.ChecksumProtocolSucceeds : Prop :=
  ∀ (seed : Word) (n : Nat) (src mid dst : Binding) (s : State),
    n < firstTooLong → n ≤ src.cap → encodedLength n ≤ mid.cap → n ≤ dst.cap →
    Apart src mid → Apart mid dst →
    ∃ t, execAll
        [.wrSum seed, .calcSum n src, .encodeC n src mid, .embedSum n mid,
         .wrSum seed, .decodeC (encodedLength n) mid dst, .calcSum n dst, .checkSum (encodedLength n) mid] s = .next t ∧
      t.response = some ⟨.ok, 0⟩ ∧ t.acc = (memRead s.mem src 0 n).foldl sumStep seed ∧
      memRead t.mem dst 0 n = memRead s.mem src 0 n

/-! ### The whole machine -/

/-- R11: only WRSUM and CALCSUM write the accumulator. -/
def Obligations.OnlyWrSumAndCalcSumWriteAccumulator : Prop :=
  ∀ (i : Instr) (s t : State), exec i s = .next t → t.acc ≠ s.acc →
    (∃ val, i = .wrSum val) ∨ (∃ n src, i = .calcSum n src)

/-- R11: ENCLEN, DECLEN, ENCODE and DECODE do not read the accumulator: from states that differ in it alone they give
states that differ in it alone. -/
def Obligations.CodecIgnoresAccumulator : Prop :=
  ∀ (i : Instr) (s t : State) (a : Word),
    (∀ n src, i ≠ .calcSum n src) → (∀ n dst, i ≠ .embedSum n dst) → (∀ n src, i ≠ .checkSum n src) →
    (∀ val, i ≠ .wrSum val) → i ≠ .rdSum → exec i s = .next t →
    exec i { s with acc := a } = .next { t with acc := a }

/-- R13: no command's behaviour depends on an earlier response. -/
def Obligations.ResponseIsNeverRead : Prop :=
  ∀ (i : Instr) (s : State) (r : Option Response), exec i { s with response := r } = exec i s

/-- R107: an error response changes nothing but the response, whose value is 0; and no command writes a byte of its
source. -/
def Obligations.ErrorsHaveNoEffect : Prop :=
  (∀ (i : Instr) (s t : State) (r : Response), exec i s = .next t → t.response = some r → r.status ≠ .ok →
    r.value = 0 ∧ t = { s with response := some r }) ∧
  (∀ (i : Instr) (s t : State) (src : Binding) (x : Nat), exec i s = .next t → i.source = some src →
    src.base ≤ x → x < src.base + src.cap → t.mem.read x = s.mem.read x)

/-- R22, R26, frame of ENCODE, DECODE and EMBEDSUM: bytes outside the write footprint keep their value, no other state
but the response changes. -/
def Obligations.StoringCommandsFrame : Prop :=
  ∀ (i : Instr) (s t : State), i.destination ≠ none → exec i s = .next t →
    t = { s with mem := t.mem, response := t.response } ∧
    SameOutside s.mem t.mem (writeFootprint i s).1 (writeFootprint i s).2

/-- R26, frame of ENCLEN, DECLEN, CALCSUM, CHECKSUM, WRSUM and RDSUM: no byte of memory changes, and of the rest only
the accumulator and the response may. -/
def Obligations.NonStoringCommandsFrame : Prop :=
  ∀ (i : Instr) (s t : State), i.destination = none → exec i s = .next t →
    t = { s with acc := t.acc, response := t.response } ∧ ∀ x, t.mem.read x = s.mem.read x

/-- R26: the response, the accumulator and the written bytes depend on nothing outside the read footprint and the
accumulator: not on slack, not on other memory. Decoded bytes are compared, never valued (U6). -/
def Obligations.OnlyReadFootprintMatters : Prop :=
  ∀ (i : Instr) (s s' t : State), s.acc = s'.acc →
    (∀ x, (readFootprint i).1 ≤ x → x < (readFootprint i).1 + (readFootprint i).2 → s.mem.read x = s'.mem.read x) →
    exec i s = .next t →
    ∃ t', exec i s' = .next t' ∧ t'.response = t.response ∧ t'.acc = t.acc ∧
      ∀ x, (writeFootprint i s).1 ≤ x → x < (writeFootprint i s).1 + (writeFootprint i s).2 →
        t'.mem.read x = t.mem.read x

/-- R128, with the duties of R34 and R118 to R122: a command, or an illegal word, issued to an idle block under the host
duties, the host doing nothing before the response, ends its step with a response. That DECODE.C owes no room on input
it rejects, and that whole bound ranges are compared for overlap, are the model's readings (log 9, log 4). -/
def Obligations.CommandUnderDutiesResponds : Prop :=
  ∀ (s : State) (c : Command) (rest : List HostAction), s.host = .issue c [] false :: rest →
    (∀ i, decode c = .ok i → HostDuties i s) →
    ∃ t r, step s = .next t ∧ t.response = some r ∧ t.host = rest

/-- R104, R120 to R122, R34: a command whose duties are broken is refused, and no error is reported. That whole bound
ranges are compared for overlap, that EMBEDSUM wants its room whatever the remainder, and that DECODE.C wants room only
for input it accepts, are the model's readings (log 4, log 10, log 9). -/
def Obligations.BrokenDutiesAreRefused : Prop :=
  ∀ (i : Instr) (s : State), ¬ HostDuties i s → ∃ r, exec i s = .refused r

/-- Every step keeps memory canonical, whatever the host does and whatever the free values are (log 2, log 3). -/
def Obligations.StepKeepsMemoryCanonical : Prop :=
  ∀ s t : State, MemoryCanonical s → step s = .next t → MemoryCanonical t
end

