-- ==== Sys2Proof/Laws/Datapath.lean ====
section
/-! SUPPORT. Lengths of what the datapath produces, the remainder table as bounds, and what the dispatcher's selection
says. -/

namespace Sys2Proof.Machine

@[simp] theorem length_unit (f : Field) : (unit f).length = 2 := rfl

@[simp] theorem length_unitsOf (f : Fields) : (unitsOf f).length = 8 := rfl

@[simp] theorem length_bytesOf (f : Fields) : (bytesOf f).length = 7 := rfl

@[simp] theorem length_encStride (b : List Byte) : (encStride b).length = 8 := rfl

@[simp] theorem length_decGroup (e : List Byte) : (decGroup e).length = 7 := rfl

theorem unitCount_le (r : Nat) : 2 * unitCount r ≤ 8 := by
  unfold unitCount; split <;> omega

theorem cost_le (r : Nat) : cost r ≤ 10 := by
  unfold cost; split <;> omega

/-- `COST[r]` is the bytes of the units and the two bytes of the marker (R55). -/
theorem cost_eq_units {r : Nat} (h0 : r ≠ 0) (h6 : r ≤ 6) : cost r = 2 * unitCount r + 2 := by
  interval_cases r <;> simp_all [cost, unitCount]

@[simp] theorem cost_zero : cost 0 = 0 := rfl

@[simp] theorem length_encR (r : Nat) (b : List Byte) : (encR r b).length = 2 * unitCount r := by
  simp [encR, unitCount_le r]

theorem length_decR {r : Nat} (h : r ≤ 6) (e : List Byte) : (decR r e).length = r := by
  simp [decR]; omega

/-- ENCODE produces exactly `EncodedLen` bytes. -/
theorem length_encodeData (data : List Byte) : (encodeData data).length = encodedLen data.length := by
  have h7 : data.length % 7 < 7 := Nat.mod_lt _ (by omega)
  have hf : ∀ q, ((List.range q).flatMap fun g => encStride ((data.drop (stride * g)).take stride)).length = 8 * q := by
    intro q; simp [List.length_flatMap, Nat.mul_comm]
  simp only [encodeData, List.length_append, hf, encodedLen, groupBytes]
  by_cases h : data.length % stride = 0
  · simp [h]
  · have : cost (data.length % stride) = 2 * unitCount (data.length % stride) + 2 :=
      cost_eq_units h (by simp only [stride]; omega)
    simp [h, this]

/-- DECODE produces exactly `DecodedLen` bytes. -/
theorem length_decodeData {off : Nat} (h : off ≤ 6) (data : List Byte) :
    (decodeData off data).length = decodedLen data.length off := by
  have hf : ∀ q, ((List.range q).flatMap fun g =>
      decGroup ((data.drop (groupBytes * g)).take groupBytes)).length = 7 * q := by
    intro q; simp [List.length_flatMap, Nat.mul_comm]
  simp only [decodeData, List.length_append, hf, decodedLen, stride]
  by_cases h0 : off = 0
  · simp [h0, Nat.mul_comm]
  · simp [h0, length_decR h, Nat.mul_comm]

/-- What a fitting remainder says of the length. -/
theorem fitRemainder_some {n off r : Nat} (h : fitRemainder n off = some r) :
    r = off ∧ cost off ≤ n ∧ (n - cost off) % 8 = 0 := by
  unfold fitRemainder at h
  split at h
  · cases h
  · split at h
    · cases h
    · rename_i hc hf
      simp only [groupBytes, ne_eq, Decidable.not_not] at hf
      exact ⟨by simpa using h.symm, by omega, hf⟩

/-- What a selected remainder says of the length: the tests of R80 have passed. -/
theorem selectRemainder_some {n off : Nat} {mk last : Byte} (h : selectRemainder n mk last = some off) :
    (n = 0 ∧ off = 0) ∨
    (2 ≤ n ∧ ((mk = marker ∧ off = last.toNat ∧ 1 ≤ off ∧ off ≤ 6) ∨ (mk ≠ marker ∧ off = 0)) ∧
      cost off ≤ n ∧ (n - cost off) % 8 = 0) := by
  unfold selectRemainder at h
  split at h
  · exact .inl ⟨‹_›, by simpa using h.symm⟩
  · split at h
    · cases h
    · split at h
      · split at h
        · cases h
        · obtain ⟨rfl, hc, hf⟩ := fitRemainder_some h
          exact .inr ⟨by omega, .inl ⟨‹_›, rfl, by omega, by omega⟩, hc, hf⟩
      · obtain ⟨rfl, hc, hf⟩ := fitRemainder_some h
        exact .inr ⟨by omega, .inr ⟨‹_›, rfl⟩, hc, hf⟩

theorem selectRemainder_le {n off : Nat} {mk last : Byte} (h : selectRemainder n mk last = some off) : off ≤ 6 := by
  rcases selectRemainder_some h with ⟨_, h⟩ | ⟨_, ⟨_, _, _, h⟩ | ⟨_, h⟩, _⟩ <;> omega

end Sys2Proof.Machine
end

