-- ==== Sys2Proof/Laws/Memory.lean ====
section
/-! SUPPORT. The laws of memory: a read after a write, bytes elsewhere, and that every operation keeps the canonical
form. They hold in every memory, canonical or not, unless they say so. -/

namespace Sys2Proof.Machine

@[simp] theorem Memory.read_nil (a : Nat) : Memory.read [] a = unlistedByte := rfl

theorem Memory.read_erase (m : Memory) (a x : Nat) :
    (m.erase a).read x = if x = a then unlistedByte else m.read x := by
  induction m with
  | nil => simp [Memory.erase]
  | cons p rest ih =>
    obtain ⟨b, v⟩ := p
    by_cases hb : b = a <;> by_cases hx : b = x <;> simp_all [Memory.erase, Memory.read]

theorem Memory.read_place (m : Memory) (a : Nat) (v : Byte) (x : Nat) (h : m.read a = unlistedByte)
    (hm : ∀ w, (a, w) ∉ m) : (m.place a v).read x = if x = a then v else m.read x := by
  induction m with
  | nil => by_cases hx : a = x <;> simp [Memory.place, Memory.read, hx, eq_comm]
  | cons p rest ih =>
    obtain ⟨b, w⟩ := p
    have hb : b ≠ a := fun e => hm w (by simp [e])
    have hr : Memory.read rest a = unlistedByte := by simpa [Memory.read, hb] using h
    have hrest : ∀ w, (a, w) ∉ rest := fun w hw => hm w (List.mem_cons_of_mem _ hw)
    by_cases hlt : a < b
    · by_cases hx : a = x
      · subst hx; simp [Memory.place, hlt, Memory.read]
      · simp [Memory.place, hlt, Memory.read, hx, Ne.symm hx]
    · by_cases hx : b = x
      · subst hx; simp [Memory.place, hlt, Memory.read, hb]
      · simp [Memory.place, hlt, Memory.read, hx, ih hr hrest]

theorem Memory.not_mem_erase (m : Memory) (a : Nat) (w : Byte) : (a, w) ∉ m.erase a := by
  induction m with
  | nil => simp [Memory.erase]
  | cons p rest ih =>
    obtain ⟨b, v⟩ := p
    by_cases hb : b = a
    · simpa [Memory.erase, hb] using ih
    · simpa [Memory.erase, hb, Ne.symm hb] using ih

/-- A read after one write: the byte written there, the old byte elsewhere. -/
theorem Memory.read_write (m : Memory) (a : Nat) (v : Byte) (x : Nat) :
    (m.write a v).read x = if x = a then v else m.read x := by
  unfold Memory.write
  split
  · rename_i hv; rw [Memory.read_erase, hv]
  · rw [Memory.read_place _ _ _ _ (by simp [Memory.read_erase]) (fun w => m.not_mem_erase a w), Memory.read_erase]
    split <;> rfl

/-- A read after a store of several bytes: the byte stored there, the old byte elsewhere. -/
theorem Memory.read_writeBytes (bs : List Byte) : ∀ (m : Memory) (a x : Nat),
    (m.writeBytes a bs).read x = if a ≤ x ∧ x < a + bs.length then bs.getD (x - a) 0 else m.read x := by
  induction bs with
  | nil => intro m a x; simp only [Memory.writeBytes, List.length_nil]; rw [if_neg (by omega)]
  | cons b bs ih =>
    intro m a x
    simp only [Memory.writeBytes, ih, Memory.read_write, List.length_cons]
    by_cases hx : x = a
    · subst hx; simp
    · by_cases h : a ≤ x ∧ x < a + (bs.length + 1)
      · rw [if_pos (by omega), if_pos h]
        obtain ⟨k, rfl⟩ : ∃ k, x = a + 1 + k := ⟨x - (a + 1), by omega⟩
        simp [show a + 1 + k - (a + 1) = k by omega, show a + 1 + k - a = k + 1 by omega]
      · rw [if_neg (by omega), if_neg h, if_neg hx]

@[simp] theorem Memory.length_readBytes (m : Memory) : ∀ n a, (m.readBytes a n).length = n := by
  intro n
  induction n with
  | zero => intro a; rfl
  | succ n ih => intro a; simp [Memory.readBytes, ih]

theorem Memory.getD_readBytes (m : Memory) : ∀ n a k, k < n → (m.readBytes a n).getD k 0 = m.read (a + k) := by
  intro n
  induction n with
  | zero => intro a k h; omega
  | succ n ih =>
    intro a k h
    cases k with
    | zero => simp [Memory.readBytes]
    | succ k => simpa [Memory.readBytes, Nat.add_assoc, Nat.add_comm 1 k] using ih (a + 1) k (by omega)

/-- Two ranges with the same bytes read as the same list. -/
theorem Memory.readBytes_congr (m m' : Memory) : ∀ n a a', (∀ k, k < n → m.read (a + k) = m'.read (a' + k)) →
    m.readBytes a n = m'.readBytes a' n := by
  intro n
  induction n with
  | zero => intros; rfl
  | succ n ih =>
    intro a a' h
    simp only [Memory.readBytes]
    rw [show m.read a = m'.read a' by simpa using h 0 (by omega),
      ih (a + 1) (a' + 1) fun k hk => by simpa [Nat.add_assoc, Nat.add_comm 1 k] using h (k + 1) (by omega)]

/-- A read of `n + k` bytes is a read of `n` and then of `k`. -/
theorem Memory.readBytes_add (m : Memory) (k : Nat) : ∀ n a,
    m.readBytes a (n + k) = m.readBytes a n ++ m.readBytes (a + n) k := by
  intro n
  induction n with
  | zero => intro a; simp [Memory.readBytes]
  | succ n ih =>
    intro a
    rw [show n + 1 + k = (n + k) + 1 by omega]
    simp [Memory.readBytes, ih, Nat.add_assoc, Nat.add_comm 1 n]

theorem Memory.wfFrom_mono {lo lo' : Nat} {m : Memory} (h : Memory.wfFrom lo m = true) (hl : lo' ≤ lo) :
    Memory.wfFrom lo' m = true := by
  cases m with
  | nil => rfl
  | cons p rest =>
    obtain ⟨a, v⟩ := p
    simp only [Memory.wfFrom, Bool.and_eq_true, decide_eq_true_eq] at h ⊢
    exact ⟨⟨by omega, h.1.2⟩, h.2⟩

theorem Memory.wfFrom_erase (a : Nat) : ∀ {m : Memory} {lo : Nat}, Memory.wfFrom lo m = true →
    Memory.wfFrom lo (m.erase a) = true := by
  intro m
  induction m with
  | nil => intro lo _; rfl
  | cons p rest ih =>
    obtain ⟨b, v⟩ := p
    intro lo h
    simp only [Memory.wfFrom, Bool.and_eq_true, decide_eq_true_eq] at h
    by_cases hb : b = a
    · simpa [Memory.erase, hb] using ih (Memory.wfFrom_mono h.2 (by omega))
    · simpa [Memory.erase, hb, Memory.wfFrom, h.1.1, h.1.2] using ih h.2

theorem Memory.wfFrom_place (a : Nat) {v : Byte} (hv : v ≠ unlistedByte) : ∀ {m : Memory} {lo : Nat},
    Memory.wfFrom lo m = true → lo ≤ a → (∀ w, (a, w) ∉ m) → Memory.wfFrom lo (m.place a v) = true := by
  intro m
  induction m with
  | nil => intro lo _ hl _; simp [Memory.place, Memory.wfFrom, hl, hv]
  | cons p rest ih =>
    obtain ⟨b, w⟩ := p
    intro lo h hl hm
    simp only [Memory.wfFrom, Bool.and_eq_true, decide_eq_true_eq] at h
    have hne : b ≠ a := fun e => hm w (by simp [e])
    by_cases hlt : a < b
    · have hb : a + 1 ≤ b := hlt
      simp [Memory.place, hlt, Memory.wfFrom, hl, hv, hb, h.1.2, h.2]
    · simpa [Memory.place, hlt, Memory.wfFrom, h.1.1, h.1.2] using
        ih h.2 (by omega) fun w' hw => hm w' (List.mem_cons_of_mem _ hw)

/-- A write keeps the canonical form. -/
theorem Memory.wf_write {m : Memory} (h : m.wf = true) (a : Nat) (v : Byte) : (m.write a v).wf = true := by
  unfold Memory.write
  split
  · exact Memory.wfFrom_erase a h
  · rename_i hv
    exact Memory.wfFrom_place a hv (Memory.wfFrom_erase a h) (Nat.zero_le a) fun w => m.not_mem_erase a w

/-- A store of several bytes keeps the canonical form. -/
theorem Memory.wf_writeBytes (bs : List Byte) : ∀ {m : Memory}, m.wf = true → ∀ a, (m.writeBytes a bs).wf = true := by
  induction bs with
  | nil => intro m h _; exact h
  | cons b bs ih => intro m h a; exact ih (Memory.wf_write h a b) (a + 1)

/-- `MemWrite` keeps the canonical form. -/
theorem wf_memWrite {m : Memory} (h : m.wf = true) (b : Binding) (i : Nat) (bs : List Byte) :
    (memWrite m b i bs).wf = true := Memory.wf_writeBytes bs h _

/-- What a reset leaves in an abandoned footprint keeps the canonical form, whatever the free bytes are. -/
theorem wf_scrub {m : Memory} (h : m.wf = true) (draw a len : Nat) : (scrub draw a len m).wf = true :=
  Memory.wf_writeBytes _ h _

/-- Bytes outside an abandoned footprint are as they were. -/
theorem read_scrub_outside (m : Memory) (draw a len x : Nat) (h : x < a ∨ a + len ≤ x) :
    (scrub draw a len m).read x = m.read x := by
  rw [scrub, Memory.read_writeBytes, if_neg (by simp; omega)]

/-- Bytes outside a `MemWrite` are as they were. -/
theorem read_memWrite_outside (m : Memory) (b : Binding) (i x : Nat) (bs : List Byte)
    (h : x < b.base + i ∨ b.base + i + bs.length ≤ x) : (memWrite m b i bs).read x = m.read x := by
  rw [memWrite, Memory.read_writeBytes, if_neg (by omega)]

/-- `MemRead` of what a `MemWrite` stored. -/
theorem memRead_memWrite (m : Memory) (b : Binding) (i : Nat) (bs : List Byte) :
    memRead (memWrite m b i bs) b i bs.length = bs := by
  apply List.ext_getElem (by simp [memRead])
  intro k h1 h2
  have := Memory.getD_readBytes (memWrite m b i bs) bs.length (b.base + i) k h2
  rw [memWrite, Memory.read_writeBytes, if_pos (by omega)] at this
  simpa [memRead, memWrite, List.getD_eq_getElem?_getD, h1, h2] using this

/-- No entry lies below the bound of a canonical memory. -/
theorem Memory.read_of_lt_wfFrom : ∀ {m : Memory} {lo x : Nat}, Memory.wfFrom lo m = true → x < lo →
    m.read x = unlistedByte := by
  intro m
  induction m with
  | nil => intros; rfl
  | cons p rest ih =>
    obtain ⟨a, v⟩ := p
    intro lo x h hx
    simp only [Memory.wfFrom, Bool.and_eq_true, decide_eq_true_eq] at h
    rw [Memory.read, if_neg (by omega), ih h.2 (by omega)]

theorem Memory.eq_of_wfFrom : ∀ {m m' : Memory} {lo : Nat}, Memory.wfFrom lo m = true → Memory.wfFrom lo m' = true →
    (∀ x, m.read x = m'.read x) → m = m' := by
  intro m
  induction m with
  | nil =>
    intro m' lo _ h' hr
    cases m' with
    | nil => rfl
    | cons p rest =>
      obtain ⟨a, v⟩ := p
      simp only [Memory.wfFrom, Bool.and_eq_true, decide_eq_true_eq] at h'
      exact absurd (by simpa [Memory.read] using (hr a).symm) h'.1.2
  | cons p rest ih =>
    obtain ⟨a, v⟩ := p
    intro m' lo h h' hr
    simp only [Memory.wfFrom, Bool.and_eq_true, decide_eq_true_eq] at h
    cases m' with
    | nil => exact absurd (by simpa [Memory.read] using hr a) h.1.2
    | cons p' rest' =>
      obtain ⟨a', v'⟩ := p'
      simp only [Memory.wfFrom, Bool.and_eq_true, decide_eq_true_eq] at h'
      have key : a = a' := by
        rcases Nat.lt_trichotomy a a' with hlt | heq | hlt
        · have := hr a
          rw [Memory.read, if_pos rfl, Memory.read, if_neg (by omega),
            Memory.read_of_lt_wfFrom h'.2 (by omega)] at this
          exact absurd this h.1.2
        · exact heq
        · have := hr a'
          rw [Memory.read, if_neg (by omega), Memory.read_of_lt_wfFrom h.2 (by omega), Memory.read,
            if_pos rfl] at this
          exact absurd this.symm h'.1.2
      subst key
      have hv : v = v' := by simpa [Memory.read] using hr a
      subst hv
      congr 1
      refine ih h.2 h'.2 fun x => ?_
      by_cases hx : a = x
      · subst hx
        rw [Memory.read_of_lt_wfFrom h.2 (by omega), Memory.read_of_lt_wfFrom h'.2 (by omega)]
      · simpa [Memory.read, hx] using hr x

/-- Canonical memories with equal contents are equal data. -/
theorem Memory.eq_of_read {m m' : Memory} (h : m.wf = true) (h' : m'.wf = true)
    (hr : ∀ x, m.read x = m'.read x) : m = m' := Memory.eq_of_wfFrom h h' hr

end Sys2Proof.Machine
end

