-- ==== Sys2Proof/Laws/State.lean ====
section
/-! SUPPORT. What each named update of the state does to each field. -/

namespace Sys2Proof.Machine

@[simp] theorem resetBlock_acc (s : State) : (resetBlock s).acc = Config.freeAcc s.draws := rfl
@[simp] theorem resetBlock_mem (s : State) : (resetBlock s).mem = s.mem := rfl
@[simp] theorem resetBlock_host (s : State) : (resetBlock s).host = s.host := rfl
@[simp] theorem resetBlock_response (s : State) : (resetBlock s).response = none := rfl
@[simp] theorem resetBlock_draws (s : State) : (resetBlock s).draws = s.draws + 1 := rfl

@[simp] theorem issueTableWord_acc (k w : Nat) (s : State) : (issueTableWord k w s).acc = s.acc := rfl
@[simp] theorem issueTableWord_mem (k w : Nat) (s : State) : (issueTableWord k w s).mem = s.mem := rfl
@[simp] theorem issueTableWord_response (k w : Nat) (s : State) : (issueTableWord k w s).response = s.response := rfl
@[simp] theorem issueTableWord_draws (k w : Nat) (s : State) : (issueTableWord k w s).draws = s.draws := rfl
@[simp] theorem issueTableWord_host (k w : Nat) (s : State) :
    (issueTableWord k w s).host = .issue (Command.ofTableWord k w) [] false :: s.host := rfl

@[simp] theorem reset_mem : State.reset.mem = [] := rfl
@[simp] theorem reset_host : State.reset.host = [] := rfl
@[simp] theorem reset_response : State.reset.response = none := rfl

/-- The response is the only field an answer changes. -/
theorem respond_eq (status : Status) (value : Word) (s : State) :
    respond status value s = .next { s with response := some { status := status, value := value } } := rfl

theorem raise_eq (e : Status) (s : State) :
    raise e s = .next { s with response := some { status := e, value := 0 } } := rfl

/-- An answer is the next state it names, and nothing else. -/
theorem respond_next {status : Status} {value : Word} {s t : State} (h : respond status value s = .next t) :
    t = { s with response := some { status := status, value := value } } := by
  simpa [respond_eq] using h.symm

theorem raise_next {e : Status} {s t : State} (h : raise e s = .next t) :
    t = { s with response := some { status := e, value := 0 } } := respond_next h

end Sys2Proof.Machine
end

