-- ==== Sys2Proof/Laws/Commands.lean ====
section
/-! SUPPORT. What each shared operation can answer: cited instead of unfolding it. -/

namespace Sys2Proof.Machine

/-- If ENCODE answers a next state, its bindings keep the host's duties, and the state is that of the length error or
the one with the encoding written at the destination. -/
theorem encodeCommand_next {slack n : Nat} {src dst : Binding} {s t : State}
    (h : encodeCommand slack n src dst s = .next t) :
    n + slack ≤ src.cap ∧ encodedLen n ≤ dst.cap ∧ src.overlaps dst = false ∧
    ((lengthBound ≤ encodedLen n ∧ t = { s with response := some ⟨.invalidInputLength, 0⟩ }) ∨
      (encodedLen n < lengthBound ∧
        t = { s with
          mem := memWrite s.mem dst 0 (encodeData (memRead s.mem src 0 n)),
          response := some ⟨.ok, BitVec.ofNat 32 (encodedLen n)⟩ })) := by
  unfold encodeCommand at h
  split at h
  · cases h
  · split at h
    · cases h
    · split at h
      · cases h
      · refine ⟨by omega, by omega, by simp_all, ?_⟩
        split at h
        · exact .inl ⟨‹_›, raise_next h⟩
        · exact .inr ⟨by omega, by rw [respond_next h]⟩

/-- If the common end of DECODE answers a next state, it is the decoded bytes written at the destination. -/
theorem finishDecode_next {off n : Nat} {src dst : Binding} {s t : State}
    (h : finishDecode off n src dst s = .next t) :
    decodedLen n off ≤ dst.cap ∧ src.overlaps dst = false ∧
      t = { s with
        mem := memWrite s.mem dst 0 (decodeData off (memRead s.mem src 0 n)),
        response := some ⟨.ok, BitVec.ofNat 32 (decodedLen n off)⟩ } := by
  unfold finishDecode at h
  split at h
  · cases h
  · split at h
    · cases h
    · refine ⟨by omega, by simp_all, ?_⟩
      rw [respond_next h]

/-- A command with nothing in its window is its meaning. -/
@[simp] theorem transact_quiet (i : Instr) (s : State) : transact i [] false s = exec i s := rfl

/-- An illegal word with nothing in its window is the IllegalCommand response. -/
@[simp] theorem transactIllegal_quiet (s : State) :
    transactIllegal [] false s = .next { s with response := some ⟨.illegalCommand, 0⟩ } := rfl

/-- If an abandoned command answers a next state, its meaning did, and the state is the reset one. -/
theorem abandon_next {i : Instr} {s t : State} (h : abandon i s = .next t) :
    (∃ u, exec i s = .next u) ∧
      t = resetBlock { s with mem := scrub s.draws (writeFootprint i s).1 (writeFootprint i s).2 s.mem } := by
  unfold abandon at h
  split at h
  · rename_i u hu
    exact ⟨⟨u, hu⟩, by simpa using h.symm⟩
  · cases h
  · cases h

/-- An address touches a buffer exactly if it lies in one of the bound ranges. -/
theorem touchesBuffer_eq_true_iff (src dst : Option Binding) (a : Nat) :
    touchesBuffer src dst a = true ↔ ∃ b, (src = some b ∨ dst = some b) ∧ b.base ≤ a ∧ a < b.base + b.cap := by
  cases src <;> cases dst <;> simp [touchesBuffer, boundCovers, Binding.covers]

/-- If a command with its window answers a next state, no duty was broken in the window. -/
theorem transact_next {i : Instr} {w : List WindowAct} {resets : Bool} {s t : State}
    (h : transact i w resets s = .next t) :
    windowRefusal i.source i.destination w = none ∧
      (if resets then abandon i { s with mem := windowWrites w s.mem }
        else exec i { s with mem := windowWrites w s.mem }) = .next t := by
  unfold transact at h
  split at h
  · cases h
  · exact ⟨‹_›, h⟩

/-- What the host writes inside a window keeps the canonical form. -/
theorem wf_windowWrites : ∀ (w : List WindowAct) {m : Memory}, m.wf = true → (windowWrites w m).wf = true
  | [], _, h => h
  | .issue _ :: rest, _, h => wf_windowWrites rest h
  | .read _ :: rest, _, h => wf_windowWrites rest h
  | .write a b :: rest, _, h => wf_windowWrites rest (Memory.wf_write h a b)

end Sys2Proof.Machine
end

