-- ==== Sys2Proof/Laws/PerInstr.lean ====
section
/-! SUPPORT. The family FixedBits: what the fixed fields of a command word hold, for every command. -/

namespace Sys2Proof.Laws.FixedBits

/-- The record of a command has zero reserved bits, an assigned operation, and the checked bit only on ENCODE and
DECODE (spec/30_encoding.md R45, R47). -/
def Statement (i : Instr) : Prop :=
  (encode i).reserved = 0 ∧ (encode i).op.toNat ≤ 8 ∧
    ((encode i).cb = true → (encode i).op = 2 ∨ (encode i).op = 3)

/-- The fixed fields of a word, as one check on its eight bits. -/
def wordOk (w : BitVec 8) : Bool :=
  w.extractLsb' 5 3 == 0 && decide ((w.extractLsb' 0 4).toNat ≤ 8) &&
    (!w.getLsbD 4 || w.extractLsb' 0 4 == 2 || w.extractLsb' 0 4 == 3)

theorem of_wordOk {i : Instr} (h : wordOk (encode i).cmd = true) : Statement i := by
  simp only [wordOk, Bool.and_eq_true, Bool.or_eq_true, beq_iff_eq, decide_eq_true_eq, Bool.not_eq_true'] at h
  refine ⟨h.1.1, h.1.2, fun hc => ?_⟩
  rcases h.2 with (h0 | h2) | h3
  · exact absurd (hc.symm.trans h0) (by decide)
  · exact .inl h2
  · exact .inr h3

theorem encLen (n : Nat) : Statement (.encLen n) := of_wordOk (show wordOk 0x00 = true by decide)
theorem decLen (n off : Nat) : Statement (.decLen n off) := of_wordOk (show wordOk 0x01 = true by decide)
theorem encodeU (n : Nat) (src dst : Binding) : Statement (.encodeU n src dst) := of_wordOk (show wordOk 0x02 = true by decide)
theorem encodeC (n : Nat) (src dst : Binding) : Statement (.encodeC n src dst) := of_wordOk (show wordOk 0x12 = true by decide)
theorem decodeU (n : Nat) (src dst : Binding) : Statement (.decodeU n src dst) := of_wordOk (show wordOk 0x03 = true by decide)
theorem decodeC (n : Nat) (src dst : Binding) : Statement (.decodeC n src dst) := of_wordOk (show wordOk 0x13 = true by decide)
theorem calcSum (n : Nat) (src : Binding) : Statement (.calcSum n src) := of_wordOk (show wordOk 0x04 = true by decide)
theorem embedSum (n : Nat) (dst : Binding) : Statement (.embedSum n dst) := of_wordOk (show wordOk 0x05 = true by decide)
theorem checkSum (n : Nat) (src : Binding) : Statement (.checkSum n src) := of_wordOk (show wordOk 0x06 = true by decide)
theorem wrSum (val : Word) : Statement (.wrSum val) := of_wordOk (show wordOk 0x07 = true by decide)
theorem rdSum : Statement (.rdSum) := of_wordOk (show wordOk 0x08 = true by decide)

end Sys2Proof.Laws.FixedBits
end

