-- ==== Sys2Proof/Laws/Safety.lean ====
section
/-! SUPPORT. The machine's tables, lengths and checks in the terms claims are stated in (Safety.lean). -/

namespace Sys2Proof.Safety

open Sys2Proof.Machine

theorem cost_eq_table (r : Nat) : cost r = costTable.getD r 0 := by
  by_cases h : r ≤ 6
  · interval_cases r <;> rfl
  · rw [List.getD_eq_default _ _ (by simp [costTable]; omega)]
    unfold cost; split <;> omega

theorem unitCount_eq_table (r : Nat) : unitCount r = unitTable.getD r 0 := by
  by_cases h : r ≤ 6
  · interval_cases r <;> rfl
  · rw [List.getD_eq_default _ _ (by simp [unitTable]; omega)]
    unfold unitCount; split <;> omega

theorem spareBits_eq_table (r : Nat) : spareBits r = spareTable.getD r 0 := by
  by_cases h : r ≤ 6
  · interval_cases r <;> rfl
  · rw [List.getD_eq_default _ _ (by simp [spareTable]; omega)]
    unfold spareBits; split <;> omega

theorem checksumShift_eq_table (r : Nat) : checksumShift r = shiftTable.getD r 0 := by
  by_cases h : r ≤ 6
  · interval_cases r <;> rfl
  · rw [List.getD_eq_default _ _ (by simp [shiftTable]; omega)]
    unfold checksumShift; split <;> omega

theorem encodedLen_eq (n : Nat) : encodedLen n = encodedLength n := by
  simp only [encodedLen, encodedLength, cost_eq_table, groupBytes, stride]

theorem decodedLen_eq (n off : Nat) : decodedLen n off = decodedLength n off := by
  simp only [decodedLen, decodedLength, cost_eq_table, groupBytes, stride]

/-- The machine's overlap test and the statements' separation are opposite. -/
theorem overlaps_eq_false_iff (a b : Binding) : a.overlaps b = false ↔ Apart a b := by
  simp only [Binding.overlaps, Apart, decide_eq_false_iff_not]; omega

/-- The dispatcher selects a remainder exactly where the tests of DECODE.C accept it. -/
theorem remainderOf_eq_some_iff (m : Memory) (src : Binding) (n off : Nat) :
    remainderOf m src n = some off ↔ Accepts m src n off := by
  constructor
  · intro h
    simpa only [Accepts, cost_eq_table, marker] using selectRemainder_some h
  · rintro (⟨rfl, rfl⟩ | ⟨h2, hm, hc, hf⟩)
    · rfl
    · rw [← cost_eq_table] at hc hf
      have fits : fitRemainder n off = some off := by
        rw [fitRemainder, if_neg (by omega), if_neg (by simpa only [groupBytes, ne_eq, Decidable.not_not] using hf)]
      unfold remainderOf selectRemainder
      rw [if_neg (by omega), if_neg (by omega)]
      rcases hm with ⟨hk, rfl, h1, h6⟩ | ⟨hk, rfl⟩
      · rw [if_pos (show byteAt m src (n - 2) = marker from hk), if_neg (by omega), fits]
      · rw [if_neg (show ¬ byteAt m src (n - 2) = marker from hk), fits]

theorem remainderOf_eq_none_iff (m : Memory) (src : Binding) (n : Nat) :
    remainderOf m src n = none ↔ ∀ off, ¬ Accepts m src n off := by
  simp only [Option.eq_none_iff_forall_ne_some, ne_eq, remainderOf_eq_some_iff]

end Sys2Proof.Safety
end

