-- ==== Sys2Proof/Tests/Slice0.lean ====
section
/-! SUPPORT. Small tests and the witnesses of the statements' hypotheses. Expected values come from
spec/95_test_vectors.md, the section named at each test, or from the encoding tables of spec/30_encoding.md. -/

namespace Sys2Proof.Tests

open Sys2Proof.Machine Sys2Proof.Safety

/-! ### Well-formedness: one ill-formed term for each check -/

theorem test_length_too_wide : (Instr.encLen (2 ^ 32)).wellFormed = false := by decide
theorem test_offset_too_wide : (Instr.decLen 8 8).wellFormed = false := by decide
theorem test_length_widest : (Instr.calcSum (2 ^ 32 - 1) ⟨0, 0⟩).wellFormed = true := by decide

/-! ### Decoding words written out from R45 (bits 7..5 reserved, 4 CB, 3..0 OP) and R47 -/

/-- A record with every operand field set. -/
def record (cmd : BitVec 8) : Command :=
  { cmd := cmd, n := 7, off := 5, val := 0xCAFE0001, src := ⟨1, 2⟩, dst := ⟨3, 4⟩ }

theorem test_decode_enclen : decode (record 0b00000000) = .ok (.encLen 7) := by decide
theorem test_decode_declen : decode (record 0b00000001) = .ok (.decLen 7 5) := by decide
theorem test_decode_encode_u : decode (record 0b00000010) = .ok (.encodeU 7 ⟨1, 2⟩ ⟨3, 4⟩) := by decide
theorem test_decode_encode_c : decode (record 0b00010010) = .ok (.encodeC 7 ⟨1, 2⟩ ⟨3, 4⟩) := by decide
theorem test_decode_decode_u : decode (record 0b00000011) = .ok (.decodeU 7 ⟨1, 2⟩ ⟨3, 4⟩) := by decide
theorem test_decode_decode_c : decode (record 0b00010011) = .ok (.decodeC 7 ⟨1, 2⟩ ⟨3, 4⟩) := by decide
theorem test_decode_calcsum : decode (record 0b00000100) = .ok (.calcSum 7 ⟨1, 2⟩) := by decide
theorem test_decode_embedsum : decode (record 0b00000101) = .ok (.embedSum 7 ⟨3, 4⟩) := by decide
theorem test_decode_checksum : decode (record 0b00000110) = .ok (.checkSum 7 ⟨1, 2⟩) := by decide
theorem test_decode_wrsum : decode (record 0b00000111) = .ok (.wrSum 0xCAFE0001) := by decide
theorem test_decode_rdsum : decode (record 0b00001000) = .ok .rdSum := by decide

/-- R49, section F: the three ways to be illegal, each by its name. -/
theorem test_decode_unassigned : decode (record 0x09) = .error .unassignedOperation := by decide
theorem test_decode_checked_bit : decode (record 0x14) = .error .checkedBitNotAllowed := by decide
theorem test_decode_reserved : decode (record 0x22) = .error .reservedBitsSet := by decide

/-- R49: eleven legal words of 256. -/
theorem test_legal_words : ((List.range 256).filter fun w => (decodeTableWord 8 w).isSome) =
    [0x00, 0x01, 0x02, 0x03, 0x04, 0x05, 0x06, 0x07, 0x08, 0x12, 0x13] := by decide

/-! ### One step on small states -/

/-- A state with an accumulator and bytes from address 0 up. -/
def small (acc : Word) (bytes : List Byte) : State :=
  { acc := acc, mem := Memory.writeBytes [] 0 bytes, host := [], response := none, draws := 0 }

/-- The response and some bytes of a next state. -/
def seen (a n : Nat) : Host.Outcome State Fault Refusal → Option (Option Response × List Byte)
  | .next t => some (t.response, t.mem.readBytes a n)
  | .fault _ => none
  | .refused _ => none

/-- The accumulator of a next state. -/
def seenAcc : Host.Outcome State Fault Refusal → Option Word
  | .next t => some t.acc
  | .fault _ => none
  | .refused _ => none

/-- The refusal, if the outcome is one. -/
def seenRefusal : Host.Outcome State Fault Refusal → Option Refusal
  | .next _ => none
  | .fault _ => none
  | .refused r => some r

/-- Every bare command word runs as the first command after reset. -/
theorem test_first_after_reset :
    [0x00, 0x01, 0x02, 0x03, 0x04, 0x05, 0x06, 0x07, 0x08, 0x12, 0x13].all (fun w =>
      match step (State.reset.withFetchWord 8 w) with
      | .next t => t.response.isSome
      | .fault _ => false
      | .refused _ => false) = true := by decide

/-- Section B. -/
theorem test_enclen_13 : seen 0 0 (exec (.encLen 13) (small 0 [])) = some (some ⟨.ok, 18⟩, []) := by decide
theorem test_enclen_bound : seen 0 0 (exec (.encLen 0xDFFFFFFD) (small 0 [])) =
    some (some ⟨.invalidInputLength, 0⟩, []) := by decide
theorem test_declen_floor : seen 0 0 (exec (.decLen 15 1) (small 0 [])) = some (some ⟨.ok, 8⟩, []) := by decide
theorem test_declen_off7 : seen 0 0 (exec (.decLen 8 7) (small 0 [])) =
    some (some ⟨.invalidInputLength, 0⟩, []) := by decide

/-- Section C, n = 10 and n = 6; program P2 for the slack. -/
theorem test_encode_c_10 :
    seen 16 15 (exec (.encodeC 10 ⟨0, 10⟩ ⟨16, 14⟩) (small 0 [0, 1, 2, 3, 4, 5, 6, 0xFF, 0xFF, 0xFF])) =
      some (some ⟨.ok, 14⟩,
        [0x4E, 0x00, 0x5E, 0x20, 0x5A, 0x10, 0x53, 0x06, 0x8D, 0xFF, 0x8D, 0xF0, 0x3D, 0x03, 0]) := by decide
theorem test_encode_c_6 :
    seen 16 11 (exec (.encodeC 6 ⟨0, 6⟩ ⟨16, 10⟩) (small 0 [0x12, 0x34, 0x56, 0x78, 0x9A, 0xBC])) =
      some (some ⟨.ok, 10⟩, [0x52, 0x8D, 0x53, 0x67, 0x70, 0x6A, 0x8A, 0x00, 0x3D, 0x06, 0]) := by decide
theorem test_encode_u_slack_ignored :
    seen 16 7 (exec (.encodeU 3 ⟨0, 9⟩ ⟨16, 8⟩)
      (small 0 [0xFF, 0xFF, 0xFF, 0xA1, 0xA2, 0xA3, 0xA4, 0xA5, 0xA6])) =
      some (some ⟨.ok, 6⟩, [0x8D, 0xFF, 0x8D, 0xF0, 0x3D, 0x03, 0]) := by decide
theorem test_encode_u_slack_missing :
    seenRefusal (exec (.encodeU 3 ⟨0, 8⟩ ⟨16, 8⟩) (small 0 [])) = some .sourceBeyondCapacity := by decide

/-- Section D. -/
theorem test_decode_c_spare_bits :
    seen 16 3 (exec (.decodeC 6 ⟨0, 6⟩ ⟨16, 2⟩) (small 0 [0x8D, 0xFF, 0x7F, 0xFF, 0x3D, 0x02])) =
      some (some ⟨.ok, 2⟩, [0xFF, 0xFF, 0]) := by decide
theorem test_decode_c_marker_range :
    seen 16 1 (exec (.decodeC 4 ⟨0, 4⟩ ⟨16, 4⟩) (small 0 [0x8D, 0xC0, 0x3D, 0x07])) =
      some (some ⟨.invalidInputLength, 0⟩, [0]) := by decide
theorem test_decode_u_group_and_rest :
    seen 16 9 (exec (.decodeU 12 ⟨0, 14⟩ ⟨16, 8⟩)
      (small 0 [0x4E, 0x00, 0x4E, 0x00, 0x4E, 0x00, 0x4E, 0x00, 0x8D, 0xC0, 0x3D, 0x01, 0x3D, 0x05])) =
      some (some ⟨.ok, 8⟩, [0, 0, 0, 0, 0, 0, 0, 0xFF, 0]) := by decide
theorem test_decode_u_malformed :
    seenRefusal (exec (.decodeU 2 ⟨0, 4⟩ ⟨16, 4⟩) (small 0 [0x4E, 0x00])) = some .uncheckedMalformedInput := by decide

/-- Section E. -/
theorem test_wrsum_rdsum : seen 0 0 (execAll [.wrSum 0x12345678, .rdSum] (small 0 [])) =
    some (some ⟨.ok, 0x12345678⟩, []) := by decide
theorem test_wrsum_seed : seenAcc (exec (.wrSum Config.sumSeed) (small 0 [])) = some Config.sumSeed := rfl
theorem test_calcsum_ff : seen 0 0 (exec (.calcSum 3 ⟨0, 3⟩) (small 0 [0xFF, 0xFF, 0xFF])) =
    some (some ⟨.ok, 0xA2A2A2A2⟩, []) := by decide
theorem test_calcsum_seeded : seenAcc (exec (.calcSum 7 ⟨0, 7⟩) (small 0x8E29C213 [0, 1, 2, 3, 4, 5, 6])) =
    some 0xBD8FA2F7 := by decide
theorem test_embedsum_high_byte :
    seen 0 6 (exec (.embedSum 2 ⟨0, 6⟩) (small 0xA5A5A5A5 [0x52, 0x8D, 0x4E, 0x00, 0x3D, 0x02])) =
      some (some ⟨.ok, 0⟩, [0x52, 0x8D, 0x58, 0x5A, 0x3D, 0x02]) := by decide
theorem test_embedsum_replaces :
    seen 0 4 (exec (.embedSum 1 ⟨0, 4⟩) (small 0x80000000 [0x52, 0xBF, 0x3D, 0x01])) =
      some (some ⟨.ok, 0⟩, [0x52, 0xA0, 0x3D, 0x01]) := by decide
theorem test_checksum_passes :
    seen 0 0 (exec (.checkSum 6 ⟨0, 6⟩) (small 0xAFFFFFFF [0x8D, 0xFF, 0x8D, 0xFA, 0x3D, 0x03])) =
      some (some ⟨.ok, 0⟩, []) := by decide
theorem test_checksum_fails :
    seen 0 0 (exec (.checkSum 6 ⟨0, 6⟩) (small 0xB2A2A2A2 [0x8D, 0xFF, 0x8D, 0xFA, 0x3D, 0x03])) =
      some (some ⟨.invalidDecodingChecksum, 0⟩, []) := by decide

/-- Section F: an illegal word changes nothing and is answered with code 3. -/
theorem test_illegal_word : step { small 5 [1] with host := [.issue (record 0x14) [] false] } =
    .next { small 5 [1] with response := some ⟨.illegalCommand, 0⟩ } := rfl

/-- R34: bindings that share a byte are refused. -/
theorem test_overlap_refused :
    seenRefusal (exec (.encodeC 3 ⟨0, 3⟩ ⟨2, 6⟩) (small 0 [])) = some .overlappingBuffers := by decide

/-- R34, R104, R122, U7: a broken duty is refused, not reported, where a length test would reject the command too. -/
theorem test_broken_duty_before_error :
    seenRefusal (exec (.encodeU 0xDFFFFFFD ⟨0, 0xDFFFFFFD⟩ ⟨2 ^ 32, 2 ^ 32⟩) (small 0 [])) =
      some .sourceBeyondCapacity ∧
    seenRefusal (exec (.encodeC 0xDFFFFFFD ⟨0, 0xDFFFFFFD⟩ ⟨2 ^ 31, 2 ^ 32⟩) (small 0 [])) =
      some .overlappingBuffers ∧
    seenRefusal (exec (.decodeC 4 ⟨0, 4⟩ ⟨3, 4⟩) (small 0 [0x8D, 0xC0, 0x3D, 0x07])) = some .overlappingBuffers ∧
    seenRefusal (exec (.decodeC 1 ⟨0, 0⟩ ⟨3, 4⟩) (small 0 [])) = some .sourceBeyondCapacity ∧
    seenRefusal (exec (.embedSum 0xDFFFFFFD ⟨0, 2 ^ 32 - 1⟩) (small 0 [])) = some .destinationBeyondCapacity ∧
    seenRefusal (exec (.checkSum 1 ⟨0, 0⟩) (small 0 [])) = some .sourceBeyondCapacity := by decide

/-- R119, D20, U15: a write to the source or a read of it before the response is refused; a read of the byte behind it
is not. -/
theorem test_source_written_refused :
    seenRefusal (step { small 5 [1] with host := [.issue (encode (.calcSum 1 ⟨0, 1⟩)) [.write 0 9] false] }) =
      some .bufferTouchedWhileBusy := by decide
theorem test_source_read_refused :
    seenRefusal (step { small 5 [1] with host := [.issue (encode (.calcSum 1 ⟨0, 1⟩)) [.read 0] false] }) =
      some .bufferTouchedWhileBusy ∧
    seenRefusal (step { small 5 [1] with host := [.issue (encode (.calcSum 1 ⟨0, 1⟩)) [.read 1] false] }) =
      none := by decide

/-! ### Witnesses: for each statement with hypotheses, a state and operands that meet them -/

/-- A state whose host issues one record and then rests. -/
def issuing (c : Command) (w : List WindowAct) (resets : Bool) (s : State) : State :=
  { s with host := [.issue c w resets] }

theorem witness_DecodeOfEncodeIsIdentity : (Instr.decLen (2 ^ 32 - 1) 7).wellFormed = true := by decide
theorem witness_DecodedCommandKeepsItsWord : decode (record 0x12) = .ok (.encodeC 7 ⟨1, 2⟩ ⟨3, 4⟩) := by decide
theorem witness_ElevenLegalWords_illegal :
    (record 0x13).cmd ∈ ([0x12, 0x13] : List (BitVec 8)) ∧ (record 0x09).cmd ∉ ([0x08] : List (BitVec 8)) := by decide
theorem witness_IllegalCommandHasOneCause :
    ∃ (s : State) (c : Command), s.host = .issue c [] false :: [] ∧
      c.cmd ∉ ([0x00, 0x01, 0x02, 0x12, 0x03, 0x13, 0x04, 0x05, 0x06, 0x07, 0x08] : List (BitVec 8)) :=
  ⟨issuing (record 0x09) [] false (small 0 []), record 0x09, rfl, by decide⟩
theorem witness_IllegalCommandHasOneCause_legal : ∃ t, exec .rdSum (small 7 []) = .next t := ⟨_, rfl⟩
theorem witness_StepRunsIssuedCommand :
    (issuing (record 0x12) [] false (small 0 [])).host = .issue (record 0x12) [] false :: [] ∧
      decode (record 0x12) = .ok (.encodeC 7 ⟨1, 2⟩ ⟨3, 4⟩) := ⟨rfl, by decide⟩
theorem witness_IdleBlockWaits :
    (small 1 []).host = [] ∧ ({ small 1 [] with host := [.write 3 9] } : State).host = .write 3 9 :: [] := ⟨rfl, rfl⟩
theorem witness_ResetKeepsBuffers :
    ({ small 1 [] with host := [.reset] } : State).host = .reset :: [] ∧
    (issuing (encode (.encodeC 3 ⟨0, 3⟩ ⟨16, 6⟩)) [] true (small 0 [])).host =
      .issue (encode (.encodeC 3 ⟨0, 3⟩ ⟨16, 6⟩)) [] true :: [] ∧
    decode (encode (.encodeC 3 ⟨0, 3⟩ ⟨16, 6⟩)) = .ok (.encodeC 3 ⟨0, 3⟩ ⟨16, 6⟩) ∧
    HostDuties (.encodeC 3 ⟨0, 3⟩ ⟨16, 6⟩) (small 0 []) :=
  ⟨rfl, rfl, by decide, by simp [HostDuties, Apart, encodedLength, costTable]⟩
theorem witness_CommandWhileBusyRefused :
    (issuing (record 0x08) [.issue (record 0x09)] false (small 0 [])).host =
      .issue (record 0x08) [.issue (record 0x09)] false :: [] ∧
    (.issue (record 0x09) : WindowAct) ∈ [WindowAct.issue (record 0x09)] := ⟨rfl, by simp⟩
/-- The last byte of the source breaks a duty, the first byte past it does not. -/
theorem witness_WindowDecidesRefusal :
    Breaks (some ⟨0, 3⟩) none (.write 2 9) ∧ ¬ Breaks (some ⟨0, 3⟩) none (.write 3 9) ∧
      Breaks (some ⟨0, 3⟩) none (.read 2) ∧ ¬ Breaks (some ⟨0, 3⟩) none (.read 3) ∧
      Breaks none (some ⟨4, 2⟩) (.read 5) :=
  ⟨⟨_, .inl rfl, by decide, by decide⟩, by simp [Breaks], ⟨_, .inl rfl, by decide, by decide⟩, by simp [Breaks],
    ⟨_, .inr rfl, by decide, by decide⟩⟩
theorem witness_WindowDecidesRefusal_host :
    (issuing (encode (.calcSum 3 ⟨0, 3⟩)) [.write 3 9] false (small 0 [])).host =
      .issue (encode (.calcSum 3 ⟨0, 3⟩)) [.write 3 9] false :: [] ∧
    decode (encode (.calcSum 3 ⟨0, 3⟩)) = .ok (.calcSum 3 ⟨0, 3⟩) := ⟨rfl, by decide⟩
theorem witness_EncLenResult : 0xDFFFFFFC < firstTooLong ∧ firstTooLong ≤ 0xDFFFFFFD := by decide
theorem witness_DecLenResult_error : (7 ≤ 7 ∧ (7 = 7 ∨ 8 < costTable.getD 7 0)) ∧
    (1 ≤ 7 ∧ (1 = 7 ∨ 3 < costTable.getD 1 0)) := by decide
theorem witness_DecLenResult_ok : (6 ≤ 6 ∧ costTable.getD 6 0 ≤ 10) ∧ (0 ≤ 6 ∧ costTable.getD 0 0 ≤ 0) := by decide
theorem witness_LengthLaws : 6 < firstTooLong ∧ 14 % 7 = 0 ∧ encodedLength 9 = encodedLength 9 ∧ 9 % 7 = 9 % 7 := by
  decide
theorem witness_RemainderTableClosedForm : 1 ≤ 6 ∧ 6 ≤ 6 := by decide
theorem witness_GroupCodecIsBijection :
    [(0 : Byte), 1, 2, 3, 4, 5, 6].length = 7 ∧ [(0x4E : Byte), 0, 0x8D, 0xFF, 0x4E, 0, 0x8D, 0xFF].length = 8 ∧
      InAlphabet 0x4E 0 ∧ InAlphabet 0x8D 0xFF := by
  refine ⟨rfl, rfl, ?_, ?_⟩ <;> constructor <;> decide
theorem witness_PartialGroup : 1 ≤ 6 ∧ 6 ≤ 6 ∧ [(1 : Byte), 2, 3, 4, 5, 6].length = 6 ∧
    (0xFF : Field).toNat < 2 ^ spareTable.getD 6 0 := by decide
/-- The exact capacities of both variants, the ends of two ranges touching; also for the statements on the encoded
buffer, on the agreement of the variants and on the round trip. -/
theorem witness_EncodeResult :
    3 < firstTooLong ∧ 3 + 6 ≤ (⟨0, 9⟩ : Binding).cap ∧ encodedLength 3 ≤ (⟨9, 6⟩ : Binding).cap ∧
      Apart ⟨0, 9⟩ ⟨9, 6⟩ := by
  refine ⟨by decide, by decide, by decide, ?_⟩; simp [Apart]
/-- The first length that is too long, in both variants, with its duties kept. -/
theorem witness_EncodeResult_error :
    firstTooLong ≤ 0xDFFFFFFD ∧ 0xDFFFFFFD + 6 ≤ (⟨0, 0xE0000003⟩ : Binding).cap ∧
      encodedLength 0xDFFFFFFD ≤ (⟨0xE0000003, 2 ^ 32⟩ : Binding).cap ∧ Apart ⟨0, 0xE0000003⟩ ⟨0xE0000003, 2 ^ 32⟩ := by
  refine ⟨by decide, by decide, by decide, ?_⟩; simp [Apart]
theorem witness_EncodeResult_refused :
    (⟨0, 8⟩ : Binding).cap < 3 + 6 ∧ (⟨9, 5⟩ : Binding).cap < encodedLength 3 ∧
      (⟨0, 2 ^ 32 - 1⟩ : Binding).cap < encodedLength 0xDFFFFFFD := by decide
theorem witness_EncodeOfChunks : [(1 : Byte), 2, 3, 4, 5, 6, 7].length % 7 = 0 := by decide
theorem witness_MarkerIsNeverData :
    [(1 : Byte), 2, 3, 4, 5, 6, 7].length % 7 = 0 ∧ [(1 : Byte), 2, 3, 4, 5, 6, 7] ≠ [] := by decide

/-- The encoding of three bytes at address 0 (section D). -/
def encodedThree : State := small 0xA2A2A2A2 [0x8D, 0xFF, 0x8D, 0xFA, 0x3D, 0x03]

theorem witness_Accepts : Accepts encodedThree.mem ⟨0, 8⟩ 6 3 :=
  .inr ⟨by decide, .inl ⟨by decide, by decide, by decide, by decide⟩, by decide, by decide⟩
/-- Hypotheses of DecodeResult, in both variants. -/
theorem witness_DecodeResult :
    6 + 2 ≤ (⟨0, 8⟩ : Binding).cap ∧ Accepts encodedThree.mem ⟨0, 8⟩ 6 3 ∧
      decodedLength 6 3 ≤ (⟨8, 3⟩ : Binding).cap ∧ Apart ⟨0, 8⟩ ⟨8, 3⟩ :=
  ⟨by decide, witness_Accepts, by decide, by simp [Apart]⟩
theorem witness_Rejects : ∀ off, ¬ Accepts encodedThree.mem ⟨0, 8⟩ 5 off := by
  intro off h
  rcases h with ⟨h, _⟩ | ⟨_, ⟨hk, _⟩ | ⟨_, rfl⟩, _, hf⟩
  · exact absurd h (by decide)
  · exact absurd hk (by decide)
  · exact absurd hf (by decide)
/-- Hypotheses of the three clauses of DecodeUncheckedFollowsChecked and of the clauses of DecodeCheckedErrors. -/
theorem witness_DecodeErrors :
    5 ≤ (⟨0, 8⟩ : Binding).cap ∧ (∀ off, ¬ Accepts encodedThree.mem ⟨0, 8⟩ 5 off) ∧
      Accepts encodedThree.mem ⟨0, 8⟩ 6 3 ∧ (⟨8, 2⟩ : Binding).cap < decodedLength 6 3 ∧
      Apart ⟨0, 8⟩ ⟨8, 0⟩ ∧ ¬ Apart ⟨0, 8⟩ ⟨7, 3⟩ ∧ (⟨0, 7⟩ : Binding).cap < 6 + 2 ∧ (⟨0, 0⟩ : Binding).cap < 1 :=
  ⟨by decide, witness_Rejects, witness_Accepts, by decide, by simp [Apart], by simp [Apart], by decide, by decide⟩
theorem witness_DecodeOfEncodeIsPlaintext :
    3 < firstTooLong ∧ 3 + 6 ≤ (⟨0, 9⟩ : Binding).cap ∧ encodedLength 3 + 2 ≤ (⟨9, 8⟩ : Binding).cap ∧
      encodedLength 3 ≤ (⟨9, 6⟩ : Binding).cap ∧ Apart ⟨0, 9⟩ ⟨9, 6⟩ ∧ 3 ≤ (⟨17, 3⟩ : Binding).cap ∧
      Apart ⟨9, 8⟩ ⟨17, 3⟩ := by
  refine ⟨by decide, by decide, by decide, by decide, ?_, by decide, ?_⟩ <;> simp [Apart]
theorem witness_DecodeOfChunks :
    3 ≤ 6 ∧ [(0 : Byte), 0, 0, 0, 0, 0, 0, 0].length % 8 = 0 ∧
      costTable.getD 3 0 ≤ [(0x8D : Byte), 0xFF, 0x8D, 0xF0, 0x3D, 3].length := by decide
theorem witness_OneByteChangesAccumulator : (0x12 : Byte) ≠ 0x13 := by decide
theorem witness_CalcSumResult : 3 ≤ (⟨0, 3⟩ : Binding).cap ∧ 1 ≤ 3 ∧ (⟨1, 2⟩ : Binding).base = (⟨0, 3⟩ : Binding).base + 1 ∧
    3 - 1 ≤ (⟨1, 2⟩ : Binding).cap := by decide
theorem witness_EmbedSumResult :
    (6 < firstTooLong ∧ encodedLength 6 ≤ (⟨0, 10⟩ : Binding).cap ∧ 6 % 7 ≠ 0) ∧
    (7 < firstTooLong ∧ encodedLength 7 ≤ (⟨0, 8⟩ : Binding).cap ∧ 7 % 7 = 0) ∧
    (6 % 7 ≠ 0 ∧ (⟨0, 9⟩ : Binding).cap < encodedLength 6) ∧
    (0xDFFFFFFD % 7 ≠ 0 ∧ (⟨0, 2 ^ 32 - 1⟩ : Binding).cap < encodedLength 0xDFFFFFFD) ∧
    (firstTooLong ≤ 0xDFFFFFFD ∧ encodedLength 0xDFFFFFFD ≤ (⟨0, 2 ^ 32⟩ : Binding).cap) := by decide
theorem witness_CheckSumResult :
    (6 ≤ (⟨0, 8⟩ : Binding).cap ∧ Accepts encodedThree.mem ⟨0, 8⟩ 6 3 ∧ 3 ≠ 0) ∧
    (0 ≤ (⟨0, 8⟩ : Binding).cap ∧ Accepts encodedThree.mem ⟨0, 8⟩ 0 0) ∧
    (5 ≤ (⟨0, 8⟩ : Binding).cap ∧ ∀ off, ¬ Accepts encodedThree.mem ⟨0, 8⟩ 5 off) :=
  ⟨⟨by decide, witness_Accepts, by decide⟩, ⟨by decide, .inl ⟨rfl, rfl⟩⟩, by decide, witness_Rejects⟩
/-- The comparison of CHECKSUM holds in `encodedThree`, and fails there with another accumulator. -/
theorem witness_CheckSumResult_bits :
    (unfield 0x8D 0xFA).toNat % 2 ^ spareTable.getD 3 0 = encodedThree.acc.toNat / 2 ^ shiftTable.getD 3 0 ∧
    (unfield 0x8D 0xFA).toNat % 2 ^ spareTable.getD 3 0 ≠ (0xB2A2A2A2 : Word).toNat / 2 ^ shiftTable.getD 3 0 := by
  decide
theorem witness_FlippedChecksumBitIsCaught :
    3 < spareTable.getD 3 0 ∧
      ∃ t, exec (.checkSum 6 ⟨0, 8⟩) encodedThree = .next t ∧ t.response = some ⟨.ok, 0⟩ :=
  ⟨by decide, _, rfl, rfl⟩
theorem witness_ChecksumProtocolSucceeds :
    3 < firstTooLong ∧ 3 ≤ (⟨0, 3⟩ : Binding).cap ∧ encodedLength 3 ≤ (⟨3, 6⟩ : Binding).cap ∧
      3 ≤ (⟨9, 3⟩ : Binding).cap ∧ Apart ⟨0, 3⟩ ⟨3, 6⟩ ∧ Apart ⟨3, 6⟩ ⟨9, 3⟩ := by
  refine ⟨by decide, by decide, by decide, by decide, ?_, ?_⟩ <;> simp [Apart]
theorem witness_OnlyWrSumAndCalcSumWriteAccumulator :
    ∃ t, exec (.wrSum 9) (small 0 []) = .next t ∧ t.acc ≠ (small 0 []).acc := ⟨_, rfl, by decide⟩
theorem witness_CodecIgnoresAccumulator :
    (∀ n src, Instr.encLen 7 ≠ .calcSum n src) ∧ (∀ n dst, Instr.encLen 7 ≠ .embedSum n dst) ∧
      (∀ n src, Instr.encLen 7 ≠ .checkSum n src) ∧ (∀ val, Instr.encLen 7 ≠ .wrSum val) ∧ Instr.encLen 7 ≠ .rdSum ∧
      ∃ t, exec (.encLen 7) (small 0 []) = .next t := by
  refine ⟨?_, ?_, ?_, ?_, ?_, _, rfl⟩ <;> simp
theorem witness_ErrorsHaveNoEffect :
    (∃ t r, exec (.encLen 0xFFFFFFFF) (small 0 []) = .next t ∧ t.response = some r ∧ r.status ≠ .ok) ∧
    (∃ t, exec (.calcSum 3 ⟨0, 3⟩) (small 0 []) = .next t ∧ (Instr.calcSum 3 ⟨0, 3⟩).source = some ⟨0, 3⟩) :=
  ⟨⟨_, _, rfl, rfl, by decide⟩, _, rfl, rfl⟩
/-- Hypotheses of the two frames, and of the read footprint: two states that differ behind the plaintext. -/
theorem witness_Frames :
    ((Instr.embedSum 2 ⟨0, 6⟩).destination ≠ none ∧ ∃ t, exec (.embedSum 2 ⟨0, 6⟩) (small 9 []) = .next t) ∧
    ((Instr.calcSum 3 ⟨0, 3⟩).destination = none ∧ ∃ t, exec (.calcSum 3 ⟨0, 3⟩) (small 9 []) = .next t) :=
  ⟨⟨by decide, _, rfl⟩, by decide, _, rfl⟩
theorem witness_OnlyReadFootprintMatters :
    (small 9 [1, 2, 3, 4]).acc = (small 9 [1, 2, 3, 5]).acc ∧
    (∀ x, (readFootprint (.calcSum 3 ⟨0, 3⟩)).1 ≤ x →
      x < (readFootprint (.calcSum 3 ⟨0, 3⟩)).1 + (readFootprint (.calcSum 3 ⟨0, 3⟩)).2 →
      (small 9 [1, 2, 3, 4]).mem.read x = (small 9 [1, 2, 3, 5]).mem.read x) ∧
    ∃ t, exec (.calcSum 3 ⟨0, 3⟩) (small 9 [1, 2, 3, 4]) = .next t := by
  refine ⟨rfl, ?_, _, rfl⟩
  intro x _ h
  simp only [readFootprint] at h
  interval_cases x <;> decide
theorem witness_CommandUnderDutiesResponds :
    (issuing (encode .rdSum) [] false (small 0 [])).host = .issue (encode .rdSum) [] false :: [] ∧
    ∀ i, decode (encode .rdSum) = .ok i → HostDuties i (issuing (encode .rdSum) [] false (small 0 [])) := by
  refine ⟨rfl, fun i h => ?_⟩
  have : i = .rdSum := by simpa [show decode (encode .rdSum) = .ok .rdSum by decide] using h.symm
  subst this; trivial
theorem witness_BrokenDutiesAreRefused :
    ¬ HostDuties (.embedSum 7 ⟨0, 7⟩) (small 0 []) ∧ ¬ HostDuties (.calcSum 3 ⟨0, 2⟩) (small 0 []) ∧
      ¬ HostDuties (.decodeC 1 ⟨0, 1⟩ ⟨0, 1⟩) (small 0 []) := by
  simp [HostDuties, encodedLength, costTable, Apart]
theorem witness_StepKeepsMemoryCanonical :
    MemoryCanonical { small 1 [5, 0, 7] with host := [.write 1 9] } ∧
      ∃ t, step { small 1 [5, 0, 7] with host := [.write 1 9] } = .next t := ⟨rfl, _, rfl⟩

end Sys2Proof.Tests
end

section
/-! PROOFS. The accumulator and the response (spec/10_state.md R11, R13) and one turn of the host (R14, R17, R18). -/

namespace Sys2Proof.Machine

/-! ### One turn of the host -/

/-- With no host action the block waits. -/
theorem step_of_idle {s : State} (h : s.host = []) : step s = .next s := by
  simp [step, turn, h]

theorem step_of_write {s : State} {a : Nat} {b : Byte} {rest : List HostAction} (h : s.host = .write a b :: rest) :
    step s = .next { s with mem := s.mem.write a b, host := rest } := by
  simp [step, turn, h]

/-- A record that decodes is handed to its command together with the window. -/
theorem step_of_issue {s : State} {c : Command} {w : List WindowAct} {resets : Bool} {rest : List HostAction}
    {i : Instr} (h : s.host = .issue c w resets :: rest) (hc : decode c = .ok i) :
    step s = transact i w resets { s with host := rest } := by
  simp [step, turn, h, hc]

/-! ### What each command can answer, where Laws/Commands.lean does not say it yet -/

theorem execEncLen_next {n : Nat} {s t : State} (h : execEncLen n s = .next t) :
    (lengthBound ≤ encodedLen n ∧ t = { s with response := some ⟨.invalidInputLength, 0⟩ }) ∨
      (encodedLen n < lengthBound ∧ t = { s with response := some ⟨.ok, BitVec.ofNat 32 (encodedLen n)⟩ }) := by
  unfold execEncLen at h
  split at h
  · exact .inl ⟨‹_›, raise_next h⟩
  · exact .inr ⟨by omega, respond_next h⟩

theorem execDecLen_next {n off : Nat} {s t : State} (h : execDecLen n off s = .next t) :
    ((6 < off ∨ n < cost off) ∧ t = { s with response := some ⟨.invalidInputLength, 0⟩ }) ∨
      (off ≤ 6 ∧ cost off ≤ n ∧ t = { s with response := some ⟨.ok, BitVec.ofNat 32 (decodedLen n off)⟩ }) := by
  unfold execDecLen at h
  split at h
  · exact .inl ⟨.inl ‹_›, raise_next h⟩
  · split at h
    · exact .inl ⟨.inr ‹_›, raise_next h⟩
    · exact .inr ⟨by omega, by omega, respond_next h⟩

/-- If DECODE.C answers a next state, it is that of the length error or the one with the decoded bytes written. -/
theorem execDecodeC_next {n : Nat} {src dst : Binding} {s t : State} (h : execDecodeC n src dst s = .next t) :
    n ≤ src.cap ∧ src.overlaps dst = false ∧
    ((remainderOf s.mem src n = none ∧ t = { s with response := some ⟨.invalidInputLength, 0⟩ }) ∨
      ∃ off, remainderOf s.mem src n = some off ∧ decodedLen n off ≤ dst.cap ∧
        t = { s with
          mem := memWrite s.mem dst 0 (decodeData off (memRead s.mem src 0 n)),
          response := some ⟨.ok, BitVec.ofNat 32 (decodedLen n off)⟩ }) := by
  unfold execDecodeC at h
  split at h
  · cases h
  · split at h
    · split at h
      · cases h
      · exact ⟨by omega, by simp_all, .inl ⟨‹_›, raise_next h⟩⟩
    · obtain ⟨hcap, hapart, ht⟩ := finishDecode_next h
      exact ⟨by omega, hapart, .inr ⟨_, ‹_›, hcap, ht⟩⟩

/-- If DECODE.U answers a next state, its input was accepted and the decoded bytes are written. -/
theorem execDecodeU_next {n : Nat} {src dst : Binding} {s t : State} (h : execDecodeU n src dst s = .next t) :
    n + slackDec ≤ src.cap ∧ src.overlaps dst = false ∧
      ∃ off, remainderOf s.mem src n = some off ∧ decodedLen n off ≤ dst.cap ∧
        t = { s with
          mem := memWrite s.mem dst 0 (decodeData off (memRead s.mem src 0 n)),
          response := some ⟨.ok, BitVec.ofNat 32 (decodedLen n off)⟩ } := by
  unfold execDecodeU at h
  split at h
  · cases h
  · split at h
    · cases h
    · obtain ⟨hcap, hapart, ht⟩ := finishDecode_next h
      exact ⟨by omega, hapart, _, ‹_›, hcap, ht⟩

/-- If EMBEDSUM answers a next state, it is that of the length error, that of whole strides, or the one with the last
unit replaced. -/
theorem execEmbedSum_next {n : Nat} {dst : Binding} {s t : State} (h : execEmbedSum n dst s = .next t) :
    encodedLen n ≤ dst.cap ∧
    ((lengthBound ≤ encodedLen n ∧ t = { s with response := some ⟨.invalidInputLength, 0⟩ }) ∨
      (encodedLen n < lengthBound ∧ n % stride = 0 ∧ t = { s with response := some ⟨.ok, 0⟩ }) ∨
      (encodedLen n < lengthBound ∧ n % stride ≠ 0 ∧
        t = { s with
          mem := memWrite s.mem dst (lastUnitIndex n)
            (unit (embedBits
              (unfield (byteAt s.mem dst (lastUnitIndex n)) (byteAt s.mem dst (lastUnitIndex n + 1)))
              s.acc (n % stride))),
          response := some ⟨.ok, 0⟩ })) := by
  unfold execEmbedSum at h
  split at h
  · cases h
  · refine ⟨by omega, ?_⟩
    split at h
    · exact .inl ⟨‹_›, raise_next h⟩
    · split at h
      · exact .inr (.inl ⟨by omega, ‹_›, respond_next h⟩)
      · exact .inr (.inr ⟨by omega, ‹_›, respond_next h⟩)

/-- If CHECKSUM answers a next state, only the response changed: the length error, the answer to whole strides, or the
outcome of comparing the embedded bits. -/
theorem execCheckSum_next {n : Nat} {src : Binding} {s t : State} (h : execCheckSum n src s = .next t) :
    n ≤ src.cap ∧
    ((remainderOf s.mem src n = none ∧ t = { s with response := some ⟨.invalidInputLength, 0⟩ }) ∨
      (remainderOf s.mem src n = some 0 ∧ t = { s with response := some ⟨.ok, 0⟩ }) ∨
      ∃ off, remainderOf s.mem src n = some off ∧ off ≠ 0 ∧
        t = { s with
          response := some
            ⟨if lowBits (unfield (byteAt s.mem src (n - 4)) (byteAt s.mem src (n - 3))) (spareBits off) ≠
                checksumBits s.acc off then .invalidDecodingChecksum else .ok, 0⟩ }) := by
  unfold execCheckSum at h
  split at h
  · cases h
  · refine ⟨by omega, ?_⟩
    split at h
    · exact .inl ⟨‹_›, raise_next h⟩
    · split at h
      · subst_vars
        exact .inr (.inl ⟨‹_›, respond_next h⟩)
      · refine .inr (.inr ⟨_, ‹_›, ‹_›, ?_⟩)
        dsimp only at h
        split_ifs at h ⊢ with hbits
        · exact raise_next h
        · exact respond_next h

/-! ### The accumulator -/

/-- A state with another accumulator. -/
def State.withAcc (a : Word) (s : State) : State := { s with acc := a }

@[simp] theorem State.withAcc_mem (a : Word) (s : State) : (s.withAcc a).mem = s.mem := rfl

/-- An outcome with its next state changed; a fault or a refusal stays as it is. -/
def mapNext (f : State → State) : Host.Outcome State Fault Refusal → Host.Outcome State Fault Refusal
  | .next s => .next (f s)
  | .fault r => .fault r
  | .refused r => .refused r

/-- An answer does not read the accumulator and leaves it as it is. -/
theorem respond_withAcc (a : Word) (status : Status) (value : Word) (s : State) :
    respond status value (s.withAcc a) = mapNext (State.withAcc a) (respond status value s) := rfl

theorem raise_withAcc (a : Word) (e : Status) (s : State) :
    raise e (s.withAcc a) = mapNext (State.withAcc a) (raise e s) := rfl

theorem execEncLen_withAcc (a : Word) (n : Nat) (s : State) :
    execEncLen n (s.withAcc a) = mapNext (State.withAcc a) (execEncLen n s) := by
  unfold execEncLen
  split
  · exact raise_withAcc ..
  · exact respond_withAcc ..

theorem execDecLen_withAcc (a : Word) (n off : Nat) (s : State) :
    execDecLen n off (s.withAcc a) = mapNext (State.withAcc a) (execDecLen n off s) := by
  unfold execDecLen
  split_ifs
  · exact raise_withAcc ..
  · exact raise_withAcc ..
  · exact respond_withAcc ..

theorem encodeCommand_withAcc (a : Word) (slack n : Nat) (src dst : Binding) (s : State) :
    encodeCommand slack n src dst (s.withAcc a) = mapNext (State.withAcc a) (encodeCommand slack n src dst s) := by
  unfold encodeCommand
  split_ifs
  · rfl
  · rfl
  · rfl
  · exact raise_withAcc ..
  · exact respond_withAcc a _ _ { s with mem := _ }

theorem finishDecode_withAcc (a : Word) (off n : Nat) (src dst : Binding) (s : State) :
    finishDecode off n src dst (s.withAcc a) = mapNext (State.withAcc a) (finishDecode off n src dst s) := by
  unfold finishDecode
  split_ifs
  · rfl
  · rfl
  · exact respond_withAcc a _ _ { s with mem := _ }

theorem execDecodeC_withAcc (a : Word) (n : Nat) (src dst : Binding) (s : State) :
    execDecodeC n src dst (s.withAcc a) = mapNext (State.withAcc a) (execDecodeC n src dst s) := by
  unfold execDecodeC
  rw [State.withAcc_mem]
  split
  · rfl
  · split
    · split
      · rfl
      · exact raise_withAcc ..
    · exact finishDecode_withAcc ..

theorem execDecodeU_withAcc (a : Word) (n : Nat) (src dst : Binding) (s : State) :
    execDecodeU n src dst (s.withAcc a) = mapNext (State.withAcc a) (execDecodeU n src dst s) := by
  unfold execDecodeU
  rw [State.withAcc_mem]
  split
  · rfl
  · split
    · rfl
    · exact finishDecode_withAcc ..

/-! ### The statements -/

/-- Settles O46: every other command's answer is the old state with memory and response replaced. -/
theorem onlyWrSumAndCalcSumWriteAccumulator : Obligations.OnlyWrSumAndCalcSumWriteAccumulator := by
  intro i s t h hacc
  cases i with
  | wrSum val => exact .inl ⟨val, rfl⟩
  | calcSum n src => exact .inr ⟨n, src, rfl⟩
  | encLen n =>
    obtain ⟨-, rfl⟩ | ⟨-, rfl⟩ := execEncLen_next h <;> exact absurd rfl hacc
  | decLen n off =>
    obtain ⟨-, rfl⟩ | ⟨-, -, rfl⟩ := execDecLen_next h <;> exact absurd rfl hacc
  | encodeU n src dst | encodeC n src dst =>
    obtain ⟨-, -, -, ⟨-, rfl⟩ | ⟨-, rfl⟩⟩ := encodeCommand_next h <;> exact absurd rfl hacc
  | decodeU n src dst =>
    obtain ⟨-, -, off, -, -, rfl⟩ := execDecodeU_next h
    exact absurd rfl hacc
  | decodeC n src dst =>
    obtain ⟨-, -, ⟨-, rfl⟩ | ⟨off, -, -, rfl⟩⟩ := execDecodeC_next h <;> exact absurd rfl hacc
  | embedSum n dst =>
    obtain ⟨-, ⟨-, rfl⟩ | ⟨-, -, rfl⟩ | ⟨-, -, rfl⟩⟩ := execEmbedSum_next h <;> exact absurd rfl hacc
  | checkSum n src =>
    obtain ⟨-, ⟨-, rfl⟩ | ⟨-, rfl⟩ | ⟨off, -, -, rfl⟩⟩ := execCheckSum_next h <;> exact absurd rfl hacc
  | rdSum =>
    obtain rfl := respond_next h
    exact absurd rfl hacc

/-- Settles O47: each codec command commutes with a change of the accumulator. -/
theorem codecIgnoresAccumulator : Obligations.CodecIgnoresAccumulator := by
  intro i s t a hcalc hembed hcheck hwr hrd h
  have commutes : exec i (s.withAcc a) = mapNext (State.withAcc a) (exec i s) := by
    cases i with
    | encLen n => exact execEncLen_withAcc ..
    | decLen n off => exact execDecLen_withAcc ..
    | encodeU n src dst | encodeC n src dst => exact encodeCommand_withAcc ..
    | decodeU n src dst => exact execDecodeU_withAcc ..
    | decodeC n src dst => exact execDecodeC_withAcc ..
    | calcSum n src => exact absurd rfl (hcalc n src)
    | embedSum n dst => exact absurd rfl (hembed n dst)
    | checkSum n src => exact absurd rfl (hcheck n src)
    | wrSum val => exact absurd rfl (hwr val)
    | rdSum => exact absurd rfl hrd
  rw [h] at commutes
  exact commutes

/-- Settles O6: the step hands the record's command to `transact`, which with an empty window is `exec`. -/
theorem stepRunsIssuedCommand : Obligations.StepRunsIssuedCommand := by
  intro s c rest i hhost hdec
  rw [step_of_issue hhost hdec, transact_quiet]

/-- Settles O9: the turn of the host, and the law of a read after a write. -/
theorem idleBlockWaits : Obligations.IdleBlockWaits := by
  refine ⟨fun s h => step_of_idle h, fun s a b rest h => ⟨_, step_of_write h, rfl, ?_, fun x hx => ?_⟩⟩
  · simp [Memory.read_write]
  · have hne : x ≠ a := by omega
    simp [Memory.read_write, hne]

/-- Settles O48: no arm of `exec` tests the response, and every answer overwrites it. -/
theorem responseIsNeverRead : Obligations.ResponseIsNeverRead := by
  intro i s r
  cases i <;> rfl

end Sys2Proof.Machine
end

section
/-! PROOFS. What the commands do to memory (spec/20_memory.md R20 to R26): every command stores exactly its write
footprint, and its outcome depends on its read footprint and the accumulator alone. -/

namespace Sys2Proof.Machine

open Sys2Proof.Safety

/-! ### Every command stores exactly its write footprint (R22, R26) -/

/-- `t` is `s` with some bytes stored over exactly the range `fp`; of the rest only the accumulator and the response
may differ. -/
def StoresExactly (fp : Nat × Nat) (s t : State) : Prop :=
  ∃ bytes : List Byte, bytes.length = fp.2 ∧
    t = { s with acc := t.acc, mem := s.mem.writeBytes fp.1 bytes, response := t.response }

theorem StoresExactly.nothing (a : Nat) (s : State) (acc : Word) (r : Option Response) :
    StoresExactly (a, 0) s { s with acc := acc, response := r } := ⟨[], rfl, rfl⟩

/-- A `MemWrite` stores exactly the range its bytes fill. -/
theorem StoresExactly.memWrite {b : Binding} {i len : Nat} {bytes : List Byte} (hlen : bytes.length = len) (s : State)
    (r : Option Response) :
    StoresExactly (b.base + i, len) s { s with mem := memWrite s.mem b i bytes, response := r } :=
  ⟨bytes, hlen, rfl⟩

theorem StoresExactly.sameOutside {fp : Nat × Nat} {s t : State} (h : StoresExactly fp s t) :
    SameOutside s.mem t.mem fp.1 fp.2 := by
  obtain ⟨bytes, hlen, ht⟩ := h
  intro x hx
  rw [ht, Memory.read_writeBytes, if_neg (by omega)]

theorem StoresExactly.memoryCanonical {fp : Nat × Nat} {s t : State} (h : StoresExactly fp s t)
    (hs : MemoryCanonical s) : MemoryCanonical t := by
  obtain ⟨bytes, -, ht⟩ := h
  rw [ht]
  exact Memory.wf_writeBytes bytes hs _

/-- With an empty range no byte is stored at all. -/
theorem StoresExactly.eq_of_empty {fp : Nat × Nat} {s t : State} (h : StoresExactly fp s t) (hfp : fp.2 = 0) :
    t = { s with acc := t.acc, response := t.response } := by
  obtain ⟨bytes, hlen, ht⟩ := h
  obtain rfl := List.eq_nil_of_length_eq_zero (hlen.trans hfp)
  exact ht

theorem StoresExactly.eq_of_acc {fp : Nat × Nat} {s t : State} (h : StoresExactly fp s t) (hacc : t.acc = s.acc) :
    t = { s with mem := t.mem, response := t.response } := by
  obtain ⟨bytes, -, ht⟩ := h
  rw [hacc] at ht
  rw [ht]

theorem encodeFootprint_of_tooLong {n : Nat} {dst : Binding} (h : lengthBound ≤ encodedLen n) :
    encodeFootprint n dst = (dst.base, 0) := if_pos h

theorem encodeFootprint_of_fits {n : Nat} {dst : Binding} (h : encodedLen n < lengthBound) :
    encodeFootprint n dst = (dst.base, encodedLen n) := if_neg (by omega)

theorem decodeFootprint_of_rejected {n : Nat} {src dst : Binding} {s : State} (h : remainderOf s.mem src n = none) :
    decodeFootprint n src dst s = (dst.base, 0) := by simp [decodeFootprint, h]

theorem decodeFootprint_of_accepted {n off : Nat} {src dst : Binding} {s : State}
    (h : remainderOf s.mem src n = some off) :
    decodeFootprint n src dst s = (dst.base, decodedLen n off) := by simp [decodeFootprint, h]

theorem embedFootprint_of_untouched {n : Nat} {dst : Binding} (h : lengthBound ≤ encodedLen n ∨ n % stride = 0) :
    embedFootprint n dst = (dst.base, 0) := if_pos h

theorem embedFootprint_of_partial {n : Nat} {dst : Binding} (h : encodedLen n < lengthBound) (h0 : n % stride ≠ 0) :
    embedFootprint n dst = (dst.base + lastUnitIndex n, 2) := if_neg (by omega)

theorem length_encodeData_memRead (m : Memory) (src : Binding) (i n : Nat) :
    (encodeData (memRead m src i n)).length = encodedLen n := by
  simp [length_encodeData, memRead]

theorem length_decodeData_memRead {m : Memory} {src : Binding} {n off : Nat}
    (h : remainderOf m src n = some off) : (decodeData off (memRead m src 0 n)).length = decodedLen n off := by
  simp [length_decodeData (selectRemainder_le h), memRead]

theorem encodeCommand_storesExactly {slack n : Nat} {src dst : Binding} {s t : State}
    (h : encodeCommand slack n src dst s = .next t) : StoresExactly (encodeFootprint n dst) s t := by
  obtain ⟨-, -, -, ⟨hlong, rfl⟩ | ⟨hfits, rfl⟩⟩ := encodeCommand_next h
  · rw [encodeFootprint_of_tooLong hlong]
    exact .nothing ..
  · rw [encodeFootprint_of_fits hfits]
    exact .memWrite (length_encodeData_memRead ..) ..

theorem execDecodeC_storesExactly {n : Nat} {src dst : Binding} {s t : State}
    (h : execDecodeC n src dst s = .next t) : StoresExactly (decodeFootprint n src dst s) s t := by
  obtain ⟨-, -, ⟨hrej, rfl⟩ | ⟨off, hoff, -, rfl⟩⟩ := execDecodeC_next h
  · rw [decodeFootprint_of_rejected hrej]
    exact .nothing ..
  · rw [decodeFootprint_of_accepted hoff]
    exact .memWrite (length_decodeData_memRead hoff) ..

theorem execDecodeU_storesExactly {n : Nat} {src dst : Binding} {s t : State}
    (h : execDecodeU n src dst s = .next t) : StoresExactly (decodeFootprint n src dst s) s t := by
  obtain ⟨-, -, off, hoff, -, rfl⟩ := execDecodeU_next h
  rw [decodeFootprint_of_accepted hoff]
  exact .memWrite (length_decodeData_memRead hoff) ..

theorem execEmbedSum_storesExactly {n : Nat} {dst : Binding} {s t : State}
    (h : execEmbedSum n dst s = .next t) : StoresExactly (embedFootprint n dst) s t := by
  obtain ⟨-, ⟨hlong, rfl⟩ | ⟨-, hwhole, rfl⟩ | ⟨hfits, hpart, rfl⟩⟩ := execEmbedSum_next h
  · rw [embedFootprint_of_untouched (.inl hlong)]
    exact .nothing ..
  · rw [embedFootprint_of_untouched (.inr hwhole)]
    exact .nothing ..
  · rw [embedFootprint_of_partial hfits hpart]
    exact .memWrite (length_unit _) ..

theorem execCalcSum_next {n : Nat} {src : Binding} {s t : State} (h : execCalcSum n src s = .next t) :
    n ≤ src.cap ∧ t = { s with
      acc := sumFold s.acc (memRead s.mem src 0 n),
      response := some ⟨.ok, sumFold s.acc (memRead s.mem src 0 n)⟩ } := by
  unfold execCalcSum at h
  split at h
  · cases h
  · exact ⟨by omega, respond_next h⟩

/-- What a command that answers does to the state: a store over exactly its write footprint, and a change of
accumulator and response. -/
theorem exec_storesExactly {i : Instr} {s t : State} (h : exec i s = .next t) :
    StoresExactly (writeFootprint i s) s t := by
  cases i with
  | encLen n => obtain ⟨-, rfl⟩ | ⟨-, rfl⟩ := execEncLen_next h <;> exact .nothing ..
  | decLen n off => obtain ⟨-, rfl⟩ | ⟨-, -, rfl⟩ := execDecLen_next h <;> exact .nothing ..
  | encodeU n src dst | encodeC n src dst => exact encodeCommand_storesExactly h
  | decodeU n src dst => exact execDecodeU_storesExactly h
  | decodeC n src dst => exact execDecodeC_storesExactly h
  | embedSum n dst => exact execEmbedSum_storesExactly h
  | calcSum n src =>
    obtain ⟨-, rfl⟩ := execCalcSum_next h
    exact .nothing ..
  | checkSum n src =>
    obtain ⟨-, ⟨-, rfl⟩ | ⟨-, rfl⟩ | ⟨off, -, -, rfl⟩⟩ := execCheckSum_next h <;> exact .nothing ..
  | wrSum val =>
    obtain rfl := respond_next h
    exact .nothing ..
  | rdSum =>
    obtain rfl := respond_next h
    exact .nothing ..

/-- A command without a destination has an empty write footprint. -/
theorem writeFootprint_of_no_destination {i : Instr} (h : i.destination = none) (s : State) :
    (writeFootprint i s).2 = 0 := by
  cases i with
  | encLen | decLen | calcSum | checkSum | wrSum | rdSum => rfl
  | encodeU | encodeC | decodeU | decodeC | embedSum => cases h

/-- A command with a destination leaves the accumulator as it is (R11). -/
theorem exec_acc_of_destination {i : Instr} {s t : State} (hd : i.destination ≠ none) (h : exec i s = .next t) :
    t.acc = s.acc := by
  by_contra hacc
  obtain ⟨val, rfl⟩ | ⟨n, src, rfl⟩ := onlyWrSumAndCalcSumWriteAccumulator i s t h hacc <;> exact hd rfl

/-! ### Memory stays canonical -/

theorem step_of_reset {s : State} {rest : List HostAction} (h : s.host = .reset :: rest) :
    step s = .next (resetBlock { s with host := rest }) := by
  simp [step, turn, h]

/-- A record that does not decode is answered as an illegal word, together with the window. -/
theorem step_of_illegal {s : State} {c : Command} {w : List WindowAct} {resets : Bool} {rest : List HostAction}
    {e : DecodeError} (h : s.host = .issue c w resets :: rest) (hc : decode c = .error e) :
    step s = transactIllegal w resets { s with host := rest } := by
  simp [step, turn, h, hc]

/-- If an illegal word with its window answers a next state, that is the reset one or the IllegalCommand response. -/
theorem transactIllegal_next {w : List WindowAct} {resets : Bool} {s t : State}
    (h : transactIllegal w resets s = .next t) :
    windowRefusal none none w = none ∧
      (t = resetBlock { s with mem := windowWrites w s.mem } ∨
        t = { s with mem := windowWrites w s.mem, response := some ⟨.illegalCommand, 0⟩ }) := by
  unfold transactIllegal at h
  split at h
  · cases h
  · refine ⟨‹_›, ?_⟩
    dsimp only at h
    split at h
    · exact .inl (by simpa using h.symm)
    · exact .inr (raise_next h)

theorem abandon_keeps_canonical {i : Instr} {s t : State} (hs : MemoryCanonical s) (h : abandon i s = .next t) :
    MemoryCanonical t := by
  obtain ⟨-, rfl⟩ := abandon_next h
  exact wf_scrub hs ..

theorem transact_keeps_canonical {i : Instr} {w : List WindowAct} {resets : Bool} {s t : State}
    (hs : MemoryCanonical s) (h : transact i w resets s = .next t) : MemoryCanonical t := by
  have hw : MemoryCanonical { s with mem := windowWrites w s.mem } := wf_windowWrites w hs
  obtain ⟨-, h⟩ := transact_next h
  cases resets with
  | true => exact abandon_keeps_canonical hw h
  | false => exact (exec_storesExactly h).memoryCanonical hw

theorem transactIllegal_keeps_canonical {w : List WindowAct} {resets : Bool} {s t : State}
    (hs : MemoryCanonical s) (h : transactIllegal w resets s = .next t) : MemoryCanonical t := by
  obtain ⟨-, rfl | rfl⟩ := transactIllegal_next h <;> exact wf_windowWrites w hs

/-- Settles O55, by what the host does next: nothing, a write, a reset, or a command, whose window, meaning and
abandonment each only store bytes. -/
theorem stepKeepsMemoryCanonical : Obligations.StepKeepsMemoryCanonical := by
  intro s t hs h
  cases hhost : s.host with
  | nil =>
    obtain rfl : s = t := by simpa [step_of_idle hhost] using h
    exact hs
  | cons act rest =>
    cases act with
    | write a b =>
      obtain rfl : _ = t := by simpa [step_of_write hhost] using h
      exact Memory.wf_write hs a b
    | reset =>
      obtain rfl : _ = t := by simpa [step_of_reset hhost] using h
      exact hs
    | issue c w resets =>
      have hs' : MemoryCanonical { s with host := rest } := hs
      cases hc : decode c with
      | ok i => exact transact_keeps_canonical hs' (step_of_issue hhost hc ▸ h)
      | error e => exact transactIllegal_keeps_canonical hs' (step_of_illegal hhost hc ▸ h)

/-! ### The two frames -/

/-- Settles O50: a store over exactly the write footprint, and an accumulator that only WRSUM and CALCSUM write. -/
theorem storingCommandsFrame : Obligations.StoringCommandsFrame := by
  intro i s t hd h
  have hstore := exec_storesExactly h
  exact ⟨hstore.eq_of_acc (exec_acc_of_destination hd h), hstore.sameOutside⟩

/-- Settles O51: the store over the write footprint is empty. -/
theorem nonStoringCommandsFrame : Obligations.NonStoringCommandsFrame := by
  intro i s t hd h
  have ht := (exec_storesExactly h).eq_of_empty (writeFootprint_of_no_destination hd s)
  exact ⟨ht, fun x => by rw [ht]⟩

/-! ### The outcome depends on the read footprint and the accumulator alone (R26) -/

/-- The `len` bytes from `a` up are the same in both memories. -/
def AgreeOn (a len : Nat) (m m' : Memory) : Prop := ∀ x, a ≤ x → x < a + len → m.read x = m'.read x

theorem AgreeOn.empty {a : Nat} {m m' : Memory} : AgreeOn a 0 m m' := fun x _ _ => by omega

theorem AgreeOn.byteAt_eq {b : Binding} {j len i : Nat} {m m' : Memory} (h : AgreeOn (b.base + j) len m m')
    (hj : j ≤ i) (hi : i < j + len) : byteAt m b i = byteAt m' b i := h _ (by omega) (by omega)

theorem AgreeOn.memRead_eq {b : Binding} {n : Nat} {m m' : Memory} (h : AgreeOn b.base n m m') :
    memRead m b 0 n = memRead m' b 0 n :=
  Memory.readBytes_congr m m' n _ _ fun k hk => h _ (by omega) (by omega)

/-- The same bytes stored in two memories agree where they were stored. -/
theorem AgreeOn.memWrite {b : Binding} {i len : Nat} {bytes : List Byte} {m m' : Memory}
    (hlen : bytes.length = len) : AgreeOn (b.base + i) len (memWrite m b i bytes) (memWrite m' b i bytes) := by
  intro x ha hx
  have hin : b.base + i ≤ x ∧ x < b.base + i + bytes.length := by omega
  simp only [Machine.memWrite, Memory.read_writeBytes, if_pos hin]

/-- The dispatcher looks at no byte but the last two (R56). -/
theorem AgreeOn.remainderOf_eq {src : Binding} {j len n : Nat} {m m' : Memory} (h : AgreeOn (src.base + j) len m m')
    (hj : 2 ≤ n → j ≤ n - 2) (hn : n = j + len) : remainderOf m src n = remainderOf m' src n := by
  rcases (by omega : n = 0 ∨ n = 1 ∨ 2 ≤ n) with h0 | h1 | h2
  · simp [remainderOf, selectRemainder, h0]
  · simp [remainderOf, selectRemainder, h1]
  · have hj := hj h2
    rw [remainderOf, remainderOf, h.byteAt_eq (i := n - 2) hj (by omega),
      h.byteAt_eq (i := n - 1) (by omega) (by omega)]

/-- A partial group costs at least four bytes (R55), so the bytes CHECKSUM compares are inside the source. -/
theorem four_le_of_remainderOf {m : Memory} {src : Binding} {n off : Nat} (h : remainderOf m src n = some off)
    (h0 : off ≠ 0) : 4 ≤ n := by
  have h6 : off ≤ 6 := selectRemainder_le h
  obtain ⟨-, rfl⟩ | ⟨-, -, hcost, -⟩ := selectRemainder_some h
  · exact absurd rfl h0
  · have hpos : 1 ≤ unitCount off := by interval_cases off <;> simp_all [unitCount]
    have hunits := cost_eq_units h0 h6
    omega

/-- Where the first outcome is a next state, so is the second, with the same response, accumulator and bytes in `fp`. -/
def AnswersAlike (fp : Nat × Nat) (o o' : Host.Outcome State Fault Refusal) : Prop :=
  ∀ t, o = .next t → ∃ t', o' = .next t' ∧ t'.response = t.response ∧ t'.acc = t.acc ∧ AgreeOn fp.1 fp.2 t'.mem t.mem

theorem AnswersAlike.refused {fp : Nat × Nat} {r : Refusal} {o : Host.Outcome State Fault Refusal} :
    AnswersAlike fp (.refused r) o := fun _ h => by cases h

theorem AnswersAlike.respond {fp : Nat × Nat} {s s' : State} (status : Status) (value : Word) (hacc : s.acc = s'.acc)
    (hmem : AgreeOn fp.1 fp.2 s'.mem s.mem) : AnswersAlike fp (respond status value s) (respond status value s') := by
  intro t h
  obtain rfl := respond_next h
  exact ⟨_, rfl, rfl, hacc.symm, hmem⟩

/-- The same answer without a footprint: all that is left to compare is the accumulator. -/
theorem AnswersAlike.respond_only {s s' : State} (a : Nat) (status : Status) (value : Word) (hacc : s.acc = s'.acc) :
    AnswersAlike (a, 0) (Machine.respond status value s) (Machine.respond status value s') :=
  .respond status value hacc .empty

section
variable {s s' : State} (hacc : s.acc = s'.acc)
include hacc

theorem execEncLen_alike (a n : Nat) : AnswersAlike (a, 0) (execEncLen n s) (execEncLen n s') := by
  unfold execEncLen
  split <;> exact .respond_only _ _ _ hacc

theorem execDecLen_alike (a n off : Nat) : AnswersAlike (a, 0) (execDecLen n off s) (execDecLen n off s') := by
  unfold execDecLen
  split_ifs <;> exact .respond_only _ _ _ hacc

theorem encodeCommand_alike {slack n : Nat} {src dst : Binding} (hread : AgreeOn src.base n s.mem s'.mem) :
    AnswersAlike (encodeFootprint n dst) (encodeCommand slack n src dst s) (encodeCommand slack n src dst s') := by
  unfold encodeCommand
  rw [hread.memRead_eq]
  split_ifs with _ _ _ hlong
  · exact .refused
  · exact .refused
  · exact .refused
  · rw [encodeFootprint_of_tooLong hlong]
    exact .respond_only _ _ _ hacc
  · rw [encodeFootprint_of_fits (by omega)]
    exact .respond _ _ hacc (AgreeOn.memWrite (b := dst) (i := 0) (length_encodeData_memRead ..))

theorem finishDecode_alike {off n : Nat} {src dst : Binding} (hread : AgreeOn src.base n s.mem s'.mem)
    (hoff : remainderOf s.mem src n = some off) :
    AnswersAlike (dst.base, decodedLen n off) (finishDecode off n src dst s) (finishDecode off n src dst s') := by
  unfold finishDecode
  rw [← hread.memRead_eq]
  split_ifs
  · exact .refused
  · exact .refused
  · exact .respond _ _ hacc (AgreeOn.memWrite (b := dst) (i := 0) (length_decodeData_memRead hoff))

theorem execDecodeC_alike {n : Nat} {src dst : Binding} (hread : AgreeOn src.base n s.mem s'.mem) :
    AnswersAlike (decodeFootprint n src dst s) (execDecodeC n src dst s) (execDecodeC n src dst s') := by
  have hrem := AgreeOn.remainderOf_eq (j := 0) (n := n) hread (by omega) (by omega)
  unfold execDecodeC
  rw [← hrem]
  split
  · exact .refused
  · split
    next hrej =>
      rw [decodeFootprint_of_rejected hrej]
      split
      · exact .refused
      · exact .respond_only _ _ _ hacc
    next off hoff =>
      rw [decodeFootprint_of_accepted hoff]
      exact finishDecode_alike hacc hread hoff

theorem execDecodeU_alike {n : Nat} {src dst : Binding} (hread : AgreeOn src.base n s.mem s'.mem) :
    AnswersAlike (decodeFootprint n src dst s) (execDecodeU n src dst s) (execDecodeU n src dst s') := by
  have hrem := AgreeOn.remainderOf_eq (j := 0) (n := n) hread (by omega) (by omega)
  unfold execDecodeU
  rw [← hrem]
  split
  · exact .refused
  · split
    next => exact .refused
    next off hoff =>
      rw [decodeFootprint_of_accepted hoff]
      exact finishDecode_alike hacc hread hoff

theorem execCalcSum_alike {n : Nat} {src : Binding} (a : Nat) (hread : AgreeOn src.base n s.mem s'.mem) :
    AnswersAlike (a, 0) (execCalcSum n src s) (execCalcSum n src s') := by
  unfold execCalcSum
  rw [← hread.memRead_eq, ← hacc]
  split
  · exact .refused
  · exact .respond_only _ _ _ rfl

theorem execEmbedSum_alike {n : Nat} {dst : Binding}
    (hread : AgreeOn (dst.base + lastUnitIndex n) (if n % stride = 0 then 0 else 2) s.mem s'.mem) :
    AnswersAlike (embedFootprint n dst) (execEmbedSum n dst s) (execEmbedSum n dst s') := by
  unfold execEmbedSum
  split
  · exact .refused
  · split
    next hlong =>
      rw [embedFootprint_of_untouched (.inl hlong)]
      exact .respond_only _ _ _ hacc
    next hfits =>
      split
      next hwhole =>
        rw [embedFootprint_of_untouched (.inr hwhole)]
        exact .respond_only _ _ _ hacc
      next hpart =>
        rw [if_neg hpart] at hread
        dsimp only
        rw [embedFootprint_of_partial (by omega) hpart, ← hacc,
          hread.byteAt_eq (i := lastUnitIndex n) (by omega) (by omega),
          hread.byteAt_eq (i := lastUnitIndex n + 1) (by omega) (by omega)]
        exact .respond _ _ rfl (.memWrite (length_unit _))

theorem execCheckSum_alike {n : Nat} {src : Binding} (a : Nat)
    (hread : AgreeOn (src.base + (n - 4)) (min n 4) s.mem s'.mem) :
    AnswersAlike (a, 0) (execCheckSum n src s) (execCheckSum n src s') := by
  have hrem := AgreeOn.remainderOf_eq (n := n) hread (by omega) (by omega)
  unfold execCheckSum
  rw [← hrem]
  split
  · exact .refused
  · split
    next => exact .respond_only _ _ _ hacc
    next off hoff =>
      split
      · exact .respond_only _ _ _ hacc
      next hpart =>
        have h4 : 4 ≤ n := four_le_of_remainderOf hoff hpart
        rw [← hacc, hread.byteAt_eq (i := n - 4) (by omega) (by omega),
          hread.byteAt_eq (i := n - 3) (by omega) (by omega)]
        dsimp only
        split <;> exact .respond_only _ _ _ hacc

theorem exec_alike {i : Instr} (hread : AgreeOn (readFootprint i).1 (readFootprint i).2 s.mem s'.mem) :
    AnswersAlike (writeFootprint i s) (exec i s) (exec i s') := by
  cases i with
  | encLen n => exact execEncLen_alike hacc _ n
  | decLen n off => exact execDecLen_alike hacc _ n off
  | encodeU n src dst | encodeC n src dst => exact encodeCommand_alike hacc hread
  | decodeU n src dst => exact execDecodeU_alike hacc hread
  | decodeC n src dst => exact execDecodeC_alike hacc hread
  | calcSum n src => exact execCalcSum_alike hacc _ hread
  | embedSum n dst => exact execEmbedSum_alike hacc hread
  | checkSum n src => exact execCheckSum_alike hacc _ hread
  | wrSum val => exact .respond_only (s := { s with acc := val }) (s' := { s' with acc := val }) _ _ _ rfl
  | rdSum =>
    simp only [exec, execRdSum, hacc]
    exact .respond_only _ _ _ hacc

end

/-- Settles O52: each command's tests, its bytes and its answer are functions of what both states share. -/
theorem onlyReadFootprintMatters : Obligations.OnlyReadFootprintMatters :=
  fun _ _ _ t hacc hread h => exec_alike hacc hread t h

end Sys2Proof.Machine
end

section
/-! PROOFS. The opcode map (spec/30_encoding.md R45 to R49) as a relation between a record and its command, and the
decoder and encoder against it. -/

namespace Sys2Proof

/-! ### Operands at their widths (R12, R48) -/

theorem toNat_ofNat_of_lengthFits {n : Nat} (h : lengthFits n = true) : (BitVec.ofNat 32 n).toNat = n :=
  Nat.mod_eq_of_lt (of_decide_eq_true h)

theorem toNat_ofNat_of_offsetFits {off : Nat} (h : offsetFits off = true) : (BitVec.ofNat 3 off).toNat = off :=
  Nat.mod_eq_of_lt (of_decide_eq_true h)

theorem lengthFits_of_toNat_eq {v : BitVec 32} {n : Nat} (h : v.toNat = n) : lengthFits n = true :=
  decide_eq_true (h ▸ v.isLt)

theorem offsetFits_of_toNat_eq {v : BitVec 3} {off : Nat} (h : v.toNat = off) : offsetFits off = true :=
  decide_eq_true (h ▸ v.isLt)

/-! ### The rows of the opcode map (R47) -/

/-- `OpcodeRow c w i`: the command word `w` stands for `i` when the operands are those of the record `c`. One
constructor per row of R47. -/
inductive OpcodeRow (c : Command) : BitVec 8 → Instr → Prop where
  | encLen {n : Nat} (hn : c.n.toNat = n) : OpcodeRow c 0x00 (.encLen n)
  | decLen {n off : Nat} (hn : c.n.toNat = n) (hoff : c.off.toNat = off) : OpcodeRow c 0x01 (.decLen n off)
  | encodeU {n : Nat} (hn : c.n.toNat = n) : OpcodeRow c 0x02 (.encodeU n c.src c.dst)
  | encodeC {n : Nat} (hn : c.n.toNat = n) : OpcodeRow c 0x12 (.encodeC n c.src c.dst)
  | decodeU {n : Nat} (hn : c.n.toNat = n) : OpcodeRow c 0x03 (.decodeU n c.src c.dst)
  | decodeC {n : Nat} (hn : c.n.toNat = n) : OpcodeRow c 0x13 (.decodeC n c.src c.dst)
  | calcSum {n : Nat} (hn : c.n.toNat = n) : OpcodeRow c 0x04 (.calcSum n c.src)
  | embedSum {n : Nat} (hn : c.n.toNat = n) : OpcodeRow c 0x05 (.embedSum n c.dst)
  | checkSum {n : Nat} (hn : c.n.toNat = n) : OpcodeRow c 0x06 (.checkSum n c.src)
  | wrSum : OpcodeRow c 0x07 (.wrSum c.val)
  | rdSum : OpcodeRow c 0x08 .rdSum

/-- A command word is its reserved bits, its checked bit and its operation (R45). -/
theorem Command.cmd_eq_parts {c : Command} {op : Nat} {cb : Bool} (hres : c.reserved = 0) (hop : c.op.toNat = op)
    (hcb : c.cb = cb) : c.cmd = (0 : BitVec 3) ++ BitVec.ofBool cb ++ BitVec.ofNat 4 op := by
  have parts : ∀ w : BitVec 8, w = w.extractLsb' 5 3 ++ BitVec.ofBool (w.getLsbD 4) ++ w.extractLsb' 0 4 := by decide
  have hop' : c.op = BitVec.ofNat 4 op := by rw [← hop, BitVec.ofNat_toNat, BitVec.setWidth_eq]
  rw [← hres, ← hcb, ← hop']
  exact parts c.cmd

theorem opcodeRow_of_decode {c : Command} {i : Instr} (h : decode c = .ok i) : OpcodeRow c c.cmd i := by
  unfold decode at h
  split at h
  · cases h
  next hres =>
    have hcmd {op : Nat} {cb : Bool} := Command.cmd_eq_parts (op := op) (cb := cb) (not_not.mp hres)
    split at h
    next hop hcb => cases h; exact hcmd hop hcb ▸ .encLen rfl
    next hop hcb => cases h; exact hcmd hop hcb ▸ .decLen rfl rfl
    next hop hcb => cases h; exact hcmd hop hcb ▸ .encodeU rfl
    next hop hcb => cases h; exact hcmd hop hcb ▸ .encodeC rfl
    next hop hcb => cases h; exact hcmd hop hcb ▸ .decodeU rfl
    next hop hcb => cases h; exact hcmd hop hcb ▸ .decodeC rfl
    next hop hcb => cases h; exact hcmd hop hcb ▸ .calcSum rfl
    next hop hcb => cases h; exact hcmd hop hcb ▸ .embedSum rfl
    next hop hcb => cases h; exact hcmd hop hcb ▸ .checkSum rfl
    next hop hcb => cases h; exact hcmd hop hcb ▸ .wrSum
    next hop hcb => cases h; exact hcmd hop hcb ▸ .rdSum
    next => split at h <;> cases h

theorem OpcodeRow.decode_eq_of_cmd {c : Command} {w : BitVec 8} {i : Instr} (h : OpcodeRow c w i) (hw : c.cmd = w) :
    decode c = .ok i := by
  unfold decode Command.reserved Command.op Command.cb
  rw [hw]
  cases h <;> subst_vars <;> rfl

/-- The decoder is the opcode map. -/
theorem decode_eq_ok_iff {c : Command} {i : Instr} : decode c = .ok i ↔ OpcodeRow c c.cmd i :=
  ⟨opcodeRow_of_decode, fun h => h.decode_eq_of_cmd rfl⟩

/-- The encoder's record is that row of the opcode map the command has, its operands read back from their fields. -/
theorem opcodeRow_encode {i : Instr} (h : i.wellFormed = true) : OpcodeRow (encode i) (encode i).cmd i := by
  cases i with
  | encLen n => exact .encLen (toNat_ofNat_of_lengthFits h)
  | decLen n off =>
    obtain ⟨hn, hoff⟩ := Bool.and_eq_true_iff.mp h
    exact .decLen (toNat_ofNat_of_lengthFits hn) (toNat_ofNat_of_offsetFits hoff)
  | encodeU n src dst => exact .encodeU (toNat_ofNat_of_lengthFits h)
  | encodeC n src dst => exact .encodeC (toNat_ofNat_of_lengthFits h)
  | decodeU n src dst => exact .decodeU (toNat_ofNat_of_lengthFits h)
  | decodeC n src dst => exact .decodeC (toNat_ofNat_of_lengthFits h)
  | calcSum n src => exact .calcSum (toNat_ofNat_of_lengthFits h)
  | embedSum n dst => exact .embedSum (toNat_ofNat_of_lengthFits h)
  | checkSum n src => exact .checkSum (toNat_ofNat_of_lengthFits h)
  | wrSum val => exact .wrSum
  | rdSum => exact .rdSum

/-- A row's operands come from fields of their own width. -/
theorem OpcodeRow.wellFormed {c : Command} {w : BitVec 8} {i : Instr} (h : OpcodeRow c w i) : i.wellFormed = true := by
  cases h with
  | encLen hn | encodeU hn | encodeC hn | decodeU hn | decodeC hn | calcSum hn | embedSum hn | checkSum hn =>
    exact lengthFits_of_toNat_eq hn
  | decLen hn hoff => exact Bool.and_eq_true_iff.mpr ⟨lengthFits_of_toNat_eq hn, offsetFits_of_toNat_eq hoff⟩
  | wrSum | rdSum => rfl

theorem OpcodeRow.encode_cmd {c : Command} {w : BitVec 8} {i : Instr} (h : OpcodeRow c w i) : (encode i).cmd = w := by
  cases h <;> rfl

/-- A word is some row's exactly if it is one of the eleven. -/
theorem exists_opcodeRow_iff (c : Command) (w : BitVec 8) :
    (∃ i, OpcodeRow c w i) ↔
      w ∈ ([0x00, 0x01, 0x02, 0x12, 0x03, 0x13, 0x04, 0x05, 0x06, 0x07, 0x08] : List (BitVec 8)) := by
  constructor
  · rintro ⟨i, h⟩
    cases h <;> decide
  · simp only [List.mem_cons, List.not_mem_nil, or_false]
    rintro (rfl | rfl | rfl | rfl | rfl | rfl | rfl | rfl | rfl | rfl | rfl)
    exacts [⟨_, .encLen rfl⟩, ⟨_, .decLen rfl rfl⟩, ⟨_, .encodeU rfl⟩, ⟨_, .encodeC rfl⟩, ⟨_, .decodeU rfl⟩,
      ⟨_, .decodeC rfl⟩, ⟨_, .calcSum rfl⟩, ⟨_, .embedSum rfl⟩, ⟨_, .checkSum rfl⟩, ⟨_, .wrSum⟩, ⟨_, .rdSum⟩]

/-! ### The statements about the encoding -/

/-- Settles O2: the encoder's record is the command's row of the opcode map, and the decoder is that map. -/
theorem decodeOfEncodeIsIdentity : Obligations.DecodeOfEncodeIsIdentity :=
  fun _ h => (opcodeRow_encode h).decode_eq_of_cmd rfl

/-- Settles O3: what decodes is a row of the opcode map, whose operands fit and whose word the encoder gives. -/
theorem decodedCommandKeepsItsWord : Obligations.DecodedCommandKeepsItsWord :=
  fun _ _ h => ⟨(opcodeRow_of_decode h).wellFormed, (opcodeRow_of_decode h).encode_cmd⟩

/-- Settles O4: the rows of the opcode map have the eleven words, one each. -/
theorem elevenLegalWords : Obligations.ElevenLegalWords := by
  intro c
  simp only [decode_eq_ok_iff]
  exact exists_opcodeRow_iff c c.cmd

/-- Settles O1: each record is the row of the opcode map its word names. -/
theorem opcodeMapWordsDecode : Obligations.OpcodeMapWordsDecode := by
  simp only [Obligations.OpcodeMapWordsDecode, decode_eq_ok_iff]
  exact ⟨.encLen rfl, .decLen rfl rfl, .encodeU rfl, .encodeC rfl, .decodeU rfl, .decodeC rfl, .calcSum rfl,
    .embedSum rfl, .checkSum rfl, .wrSum, .rdSum⟩

/-- Settles O7: the four codes by the definition, and each of the four two-bit codes in turn. -/
theorem statusCodesOfResponse : Obligations.StatusCodesOfResponse :=
  ⟨rfl, rfl, rfl, rfl, by decide⟩

end Sys2Proof

namespace Sys2Proof.Machine

open Sys2Proof.Safety

/-! ### The marker is never data (R40) -/

/-- A code unit's high byte is `0x4E` or more, so it is never the marker's first byte (R35, R39). -/
theorem codeUnit_high_ne_marker (f : Field) : (codeUnit f).extractLsb' 8 8 ≠ marker := by
  intro h
  have hf : f.toNat < 2 ^ 14 := f.isLt
  have high : (0x4E00 + f.toNat) / 256 = 0x3D := by
    have := congrArg BitVec.toNat h
    simp only [codeUnit, bias, marker, BitVec.extractLsb'_toNat, BitVec.toNat_add, BitVec.toNat_setWidth,
      BitVec.reduceToNat, Nat.shiftRight_eq_div_pow] at this
    omega
  omega

/-- Byte 6 of an encoded stride is the high byte of its last unit (R58, R59). -/
theorem getD_encStride_six_ne_marker (b : List Byte) : (encStride b).getD 6 0 ≠ marker :=
  codeUnit_high_ne_marker _

/-- The encoding of one or more whole strides ends with a full group. -/
theorem encodeData_ends_with_group {data : List Byte} (hwhole : data.length % 7 = 0) (hne : data ≠ []) :
    ∃ front b, encodeData data = front ++ encStride b := by
  obtain ⟨k, hk⟩ : ∃ k, data.length / stride = k + 1 :=
    Nat.exists_eq_succ_of_ne_zero (by have := List.length_pos_iff.mpr hne; simp only [stride]; omega)
  refine ⟨(List.range k).flatMap fun g => encStride ((data.drop (stride * g)).take stride),
    (data.drop (stride * k)).take stride, ?_⟩
  simp only [encodeData, hk, if_pos (show data.length % stride = 0 from hwhole), List.append_nil, List.range_succ,
    List.flatMap_append, List.flatMap_singleton]

/-- Settles O29: that byte is the high byte of a full group's last unit. -/
theorem markerIsNeverData : Obligations.MarkerIsNeverData := by
  intro data hwhole hne
  obtain ⟨front, b, hdata⟩ := encodeData_ends_with_group hwhole hne
  have hlast : (front ++ encStride b).length - 2 = front.length + 6 := by simp
  rw [hdata, hlast, List.getD_append_right _ _ _ _ (by omega), Nat.add_sub_cancel_left]
  exact getD_encStride_six_ne_marker b

/-! ### The pseudo-operation CalcSum (R52) -/

theorem sumFold_eq_foldl (bytes : List Byte) : ∀ a : Word, sumFold a bytes = bytes.foldl sumStep a := by
  induction bytes with
  | nil => intro a; rfl
  | cons b rest ih => intro a; exact ih (sumStep a b)

theorem exec_wrSum (val : Word) (s : State) :
    exec (.wrSum val) s = .next { s with acc := val, response := some ⟨.ok, val⟩ } := rfl

theorem exec_rdSum (s : State) : exec .rdSum s = .next { s with response := some ⟨.ok, s.acc⟩ } := rfl

/-- CALCSUM with its source bound (R90). -/
theorem exec_calcSum_of_bound {n : Nat} {src : Binding} {s : State} (h : n ≤ src.cap) :
    exec (.calcSum n src) s = .next { s with
      acc := (memRead s.mem src 0 n).foldl sumStep s.acc,
      response := some ⟨.ok, (memRead s.mem src 0 n).foldl sumStep s.acc⟩ } := by
  simp only [exec, execCalcSum, if_neg (Nat.not_lt.mpr h), respond_eq, sumFold_eq_foldl]

/-- A command that answers a next state hands it to the commands after it. -/
theorem execAll_cons_of_next {i : Instr} {s t : State} (h : exec i s = .next t) (rest : List Instr) :
    execAll (i :: rest) s = execAll rest t := by
  simp [execAll, h]

/-- Settles O40: WRSUM makes the seed the accumulator CALCSUM folds from, and RDSUM answers what CALCSUM left. -/
theorem calcSumPseudoOperation : Obligations.CalcSumPseudoOperation := by
  intro seed n src s hcap
  rw [execAll_cons_of_next (exec_wrSum seed s), execAll_cons_of_next (exec_calcSum_of_bound hcap),
    execAll_cons_of_next (exec_rdSum _)]
  exact ⟨_, rfl, rfl, rfl⟩

end Sys2Proof.Machine
end

section
/-! PROOFS. The datapath (spec/40_datapath.md): a unit and its field, a stride and a group as the same 56 bits cut in
two ways, and the partial group. The laws about `++` of bit vectors are used with `↓`, before `simp` evaluates the sums
of widths in its type, which they match. -/

namespace Sys2Proof.Machine

open Sys2Proof.Safety

/-! ### The remainder table (R55) -/

/-- Settles O16: the six rows in turn, and the machine's tables against the spec's. -/
theorem remainderTableClosedForm : Obligations.RemainderTableClosedForm := by
  refine ⟨⟨rfl, rfl, rfl, rfl⟩, fun r h1 h6 => ?_⟩
  simp only [unitCount_eq_table, cost_eq_table, spareBits_eq_table, checksumShift_eq_table, and_self, and_true]
  interval_cases r <;> decide

/-! ### A field and its unit (R58, R60) -/

/-- Adding the bias to a field does not overflow. -/
theorem toNat_codeUnit (f : Field) : (codeUnit f).toNat = 0x4E00 + f.toNat := by
  simp only [codeUnit, bias, BitVec.toNat_add, BitVec.toNat_setWidth, BitVec.reduceToNat]
  omega

theorem codeUnit_bytes (f : Field) :
    ((codeUnit f).extractLsb' 8 8 ++ (codeUnit f).extractLsb' 0 8 : CodeUnit) = codeUnit f :=
  BitVec.extractLsb'_append_extractLsb'

@[simp] theorem unfield_codeUnit (f : Field) :
    unfield ((codeUnit f).extractLsb' 8 8) ((codeUnit f).extractLsb' 0 8) = f := by
  rw [unfield, codeUnit_bytes, codeUnit, add_sub_cancel_left, BitVec.extractLsb'_setWidth_of_le (by decide),
    BitVec.extractLsb'_eq_self]

theorem inAlphabet_unit (f : Field) : InAlphabet ((codeUnit f).extractLsb' 8 8) ((codeUnit f).extractLsb' 0 8) := by
  simp only [InAlphabet, codeUnit_bytes, BitVec.le_def, toNat_codeUnit, BitVec.reduceToNat]
  omega

/-- On the alphabet no bit of the difference is dropped, so the bias comes back. -/
theorem codeUnit_unfield {hi lo : Byte} (h : InAlphabet hi lo) : codeUnit (unfield hi lo) = hi ++ lo := by
  obtain ⟨hmin, hmax⟩ := h
  apply BitVec.eq_of_toNat_eq
  rw [toNat_codeUnit, unfield]
  generalize (hi ++ lo : CodeUnit) = w at *
  simp only [BitVec.le_def, bias, BitVec.extractLsb'_toNat, BitVec.toNat_sub, BitVec.reduceToNat,
    Nat.shiftRight_zero] at *
  omega

theorem unit_unfield {hi lo : Byte} (h : InAlphabet hi lo) : unit (unfield hi lo) = [hi, lo] := by
  rw [unit, codeUnit_unfield h, BitVec.extractLsb'_append_eq_left, BitVec.extractLsb'_append_eq_right]

/-- Settles O18: the code unit as a number, cut into its two bytes. -/
theorem unitRoundTrip : Obligations.UnitRoundTrip := by
  intro f
  refine ⟨_, _, rfl, ?_, inAlphabet_unit f, ?_, ?_, unfield_codeUnit f⟩
  · rw [codeUnit_bytes, toNat_codeUnit]
  all_goals
    apply BitVec.eq_of_toNat_eq
    simp only [BitVec.extractLsb'_toNat, BitVec.toNat_add, BitVec.toNat_setWidth, toNat_codeUnit,
      BitVec.reduceToNat, Nat.shiftRight_eq_div_pow]
    omega

/-! ### The 56 bits of a stride and of a group (R57, R61) -/

/-- The fields of a stride given as a list; `encStride` emits their units. -/
def strideFields (b : List Byte) : Fields :=
  fields (b.getD 0 0) (b.getD 1 0) (b.getD 2 0) (b.getD 3 0) (b.getD 4 0) (b.getD 5 0) (b.getD 6 0)

/-- The fields of a group given as a list; `decGroup` cuts their bytes. -/
def groupFields (e : List Byte) : Fields :=
  (unfield (e.getD 0 0) (e.getD 1 0), unfield (e.getD 2 0) (e.getD 3 0), unfield (e.getD 4 0) (e.getD 5 0),
    unfield (e.getD 6 0) (e.getD 7 0))

/-- `B56` of a stride, `b0` most significant (R57). -/
def strideWord (b : List Byte) : BitVec 56 :=
  b.getD 0 0 ++ b.getD 1 0 ++ b.getD 2 0 ++ b.getD 3 0 ++ b.getD 4 0 ++ b.getD 5 0 ++ b.getD 6 0

/-- `B56` of four fields, `F0` most significant (R61). -/
def fieldsWord : Fields → BitVec 56
  | (f0, f1, f2, f3) => f0 ++ f1 ++ f2 ++ f3

/-- `B56` cut into four fields. -/
def fieldSlices (x : BitVec 56) : Fields :=
  (x.extractLsb' 42 14, x.extractLsb' 28 14, x.extractLsb' 14 14, x.extractLsb' 0 14)

/-- `B56` cut into seven bytes. -/
def byteSlices (x : BitVec 56) : List Byte := (List.range 7).map fun i => x.extractLsb' (48 - 8 * i) 8

theorem byteSlices_eq (x : BitVec 56) :
    byteSlices x = [x.extractLsb' 48 8, x.extractLsb' 40 8, x.extractLsb' 32 8, x.extractLsb' 24 8, x.extractLsb' 16 8,
      x.extractLsb' 8 8, x.extractLsb' 0 8] := rfl

theorem encStride_eq_units (b : List Byte) : encStride b = unitsOf (strideFields b) := rfl

theorem decGroup_eq_bytes (e : List Byte) : decGroup e = bytesOf (groupFields e) := rfl

theorem strideFields_eq_slices (b : List Byte) : strideFields b = fieldSlices (strideWord b) := by
  unfold strideFields fields fieldSlices strideWord
  simp [↓BitVec.extractLsb'_append_eq_ite]

theorem bytesOf_eq_slices (f : Fields) : bytesOf f = byteSlices (fieldsWord f) := by
  obtain ⟨f0, f1, f2, f3⟩ := f
  rw [byteSlices_eq]
  unfold bytesOf fieldsWord
  simp [↓BitVec.extractLsb'_append_eq_ite]

/-- The two ways of cutting lose nothing: cutting and putting together are inverse. -/
theorem fieldSlices_fieldsWord (f : Fields) : fieldSlices (fieldsWord f) = f := by
  obtain ⟨f0, f1, f2, f3⟩ := f
  unfold fieldSlices fieldsWord
  simp [↓BitVec.extractLsb'_append_eq_ite]

theorem fieldsWord_fieldSlices (x : BitVec 56) : fieldsWord (fieldSlices x) = x := by
  change x.extractLsb' 42 14 ++ x.extractLsb' 28 14 ++ x.extractLsb' 14 14 ++ x.extractLsb' 0 14 = x
  rw [BitVec.extractLsb'_append_extractLsb'_eq_extractLsb' (show 42 = 28 + 14 from rfl),
    BitVec.extractLsb'_append_extractLsb'_eq_extractLsb' (show 28 = 14 + 14 from rfl),
    BitVec.extractLsb'_append_extractLsb'_eq_extractLsb' (show 14 = 0 + 14 from rfl)]
  exact BitVec.extractLsb'_eq_self

theorem byteSlices_strideWord {b : List Byte} (h : b.length = 7) : byteSlices (strideWord b) = b := by
  have cut : byteSlices (strideWord b) = (List.range 7).map (b.getD · 0) := by
    rw [byteSlices_eq]
    unfold strideWord
    simp [List.range_succ, ↓BitVec.extractLsb'_append_eq_ite]
  rw [cut]
  match b, h with
  | [_, _, _, _, _, _, _], _ => rfl

theorem strideWord_byteSlices (x : BitVec 56) : strideWord (byteSlices x) = x := by
  rw [byteSlices_eq]
  change x.extractLsb' 48 8 ++ x.extractLsb' 40 8 ++ x.extractLsb' 32 8 ++ x.extractLsb' 24 8 ++ x.extractLsb' 16 8 ++
    x.extractLsb' 8 8 ++ x.extractLsb' 0 8 = x
  rw [BitVec.extractLsb'_append_extractLsb'_eq_extractLsb' (show 48 = 40 + 8 from rfl),
    BitVec.extractLsb'_append_extractLsb'_eq_extractLsb' (show 40 = 32 + 8 from rfl),
    BitVec.extractLsb'_append_extractLsb'_eq_extractLsb' (show 32 = 24 + 8 from rfl),
    BitVec.extractLsb'_append_extractLsb'_eq_extractLsb' (show 24 = 16 + 8 from rfl),
    BitVec.extractLsb'_append_extractLsb'_eq_extractLsb' (show 16 = 8 + 8 from rfl),
    BitVec.extractLsb'_append_extractLsb'_eq_extractLsb' (show 8 = 0 + 8 from rfl)]
  exact BitVec.extractLsb'_eq_self

theorem bytesOf_strideFields {b : List Byte} (h : b.length = 7) : bytesOf (strideFields b) = b := by
  rw [bytesOf_eq_slices, strideFields_eq_slices, fieldsWord_fieldSlices, byteSlices_strideWord h]

theorem strideFields_bytesOf (f : Fields) : strideFields (bytesOf f) = f := by
  rw [strideFields_eq_slices, bytesOf_eq_slices, strideWord_byteSlices, fieldSlices_fieldsWord]

theorem groupFields_unitsOf (f : Fields) : groupFields (unitsOf f) = f := by
  obtain ⟨f0, f1, f2, f3⟩ := f
  simp [groupFields, unitsOf, unit]

theorem unitsOf_groupFields {e : List Byte} (h : e.length = 8) (h0 : InAlphabet (e.getD 0 0) (e.getD 1 0))
    (h1 : InAlphabet (e.getD 2 0) (e.getD 3 0)) (h2 : InAlphabet (e.getD 4 0) (e.getD 5 0))
    (h3 : InAlphabet (e.getD 6 0) (e.getD 7 0)) : unitsOf (groupFields e) = e := by
  simp only [unitsOf, groupFields, unit_unfield h0, unit_unfield h1, unit_unfield h2, unit_unfield h3]
  match e, h with
  | [e0, e1, e2, e3, e4, e5, e6, e7], _ => rfl

/-- The shift and mask form of R57, bit by bit. -/
theorem fields_eq_shifts (b0 b1 b2 b3 b4 b5 b6 : Byte) :
    let w (b : Byte) : Field := b.setWidth 14
    fields b0 b1 b2 b3 b4 b5 b6 =
      ((w b0 <<< 6) ||| (w b1 >>> 2),
       ((w b1 &&& 0x03) <<< 12) ||| (w b2 <<< 4) ||| (w b3 >>> 4),
       ((w b3 &&& 0x0F) <<< 10) ||| (w b4 <<< 2) ||| (w b5 >>> 6),
       ((w b5 &&& 0x3F) <<< 8) ||| w b6) := by
  simp only [fields, Prod.mk.injEq]
  refine ⟨?_, ?_, ?_, ?_⟩ <;> ext i hi <;> interval_cases i <;> simp [↓BitVec.getElem_append]

/-- Settles O17: the slices by cutting the stride's 56 bits, the shift form bit by bit. -/
theorem fieldsAreSlicesOfStride : Obligations.FieldsAreSlicesOfStride :=
  fun b0 b1 b2 b3 b4 b5 b6 =>
    ⟨strideFields_eq_slices [b0, b1, b2, b3, b4, b5, b6], fields_eq_shifts b0 b1 b2 b3 b4 b5 b6⟩

/-- Settles O20: `bytesOf` cuts the 56 bits of its fields, whatever these are. -/
theorem decodedBytesAreSlices : Obligations.DecodedBytesAreSlices :=
  fun _ _ _ _ _ _ _ _ => bytesOf_eq_slices _

/-- Settles O21: units and fields are inverse, and both cuts are of the same 56 bits. -/
theorem groupCodecIsBijection : Obligations.GroupCodecIsBijection := by
  refine ⟨fun b h => ?_, fun e h h0 h1 h2 h3 => ?_⟩
  · rw [encStride_eq_units, decGroup_eq_bytes, groupFields_unitsOf, bytesOf_strideFields h]
  · rw [decGroup_eq_bytes, encStride_eq_units, strideFields_bytesOf, unitsOf_groupFields h h0 h1 h2 h3]

/-! ### The partial group (R62, R63) -/

/-- The stride of a partial group: its bytes and zero bytes (R62). -/
def paddedStride (r : Nat) (b : List Byte) : List Byte := b ++ List.replicate (7 - r) 0

/-- Field `u` of the four. -/
def fieldAt (u : Nat) : Fields → Field
  | (f0, f1, f2, f3) =>
    match u with
    | 0 => f0
    | 1 => f1
    | 2 => f2
    | 3 => f3
    | _ => 0

/-- Bits put into field `u` of the four. -/
def orField (u : Nat) (k : Field) : Fields → Fields
  | (f0, f1, f2, f3) =>
    match u with
    | 0 => (f0 ||| k, f1, f2, f3)
    | 1 => (f0, f1 ||| k, f2, f3)
    | 2 => (f0, f1, f2 ||| k, f3)
    | 3 => (f0, f1, f2, f3 ||| k)
    | _ => (f0, f1, f2, f3)

theorem encR_eq_take (r : Nat) (b : List Byte) :
    encR r b = (unitsOf (strideFields (paddedStride r b))).take (2 * unitCount r) := rfl

theorem unfield_unitsOf {u : Nat} (h : u < 4) (f : Fields) :
    unfield ((unitsOf f).getD (2 * u) 0) ((unitsOf f).getD (2 * u + 1) 0) = fieldAt u f := by
  obtain ⟨f0, f1, f2, f3⟩ := f
  interval_cases u <;> exact unfield_codeUnit _

theorem take_unitsOf_append_or {u : Nat} (h : u < 4) (k : Field) (f : Fields) :
    (unitsOf f).take (2 * u) ++ unit (fieldAt u f ||| k) = (unitsOf (orField u k f)).take (2 * (u + 1)) := by
  interval_cases u <;> rfl

/-- The bytes below `r` read the first `U[r]` fields only (R63). -/
theorem decR_take_unitsOf {r : Nat} (h : r ≤ 6) (f : Fields) :
    decR r ((unitsOf f).take (2 * unitCount r)) = (bytesOf f).take r := by
  obtain ⟨f0, f1, f2, f3⟩ := f
  interval_cases r <;> simp [decR, decGroup, dec8, unitCount, unitsOf, unit, bytesOf]

theorem extractLsb'_eq_zero_of_lt {w s j l : Nat} {k : BitVec w} (hk : k.toNat < 2 ^ s) (h : s ≤ j) :
    k.extractLsb' j l = 0 := by
  apply BitVec.eq_of_toNat_eq
  have hj : k.toNat < 2 ^ j := hk.trans_le (Nat.pow_le_pow_right (by decide) h)
  simp [BitVec.extractLsb'_toNat, Nat.shiftRight_eq_div_pow, Nat.div_eq_of_lt hj]

/-- The bytes below `r` read no spare bit (R63). -/
theorem take_bytesOf_orField {r : Nat} {k : Field} (h1 : 1 ≤ r) (h6 : r ≤ 6) (hk : k.toNat < 2 ^ spareBits r)
    (f : Fields) : (bytesOf (orField (unitCount r - 1) k f)).take r = (bytesOf f).take r := by
  obtain ⟨f0, f1, f2, f3⟩ := f
  have zero {j l : Nat} (h : spareBits r ≤ j) : k.extractLsb' j l = 0 := extractLsb'_eq_zero_of_lt hk h
  interval_cases r <;> simp [bytesOf, orField, unitCount, BitVec.extractLsb'_or, zero, spareBits]

theorem length_paddedStride {r : Nat} {b : List Byte} (h6 : r ≤ 6) (hb : b.length = r) :
    (paddedStride r b).length = 7 := by
  rw [paddedStride, List.length_append, List.length_replicate]
  omega

/-- The stride's bytes read back, cut to the partial group's own. -/
theorem take_bytesOf_paddedStride {r : Nat} {b : List Byte} (h6 : r ≤ 6) (hb : b.length = r) :
    (bytesOf (strideFields (paddedStride r b))).take r = b := by
  rw [bytesOf_strideFields (length_paddedStride h6 hb), paddedStride, List.take_left' hb]

theorem getD_encR {r i : Nat} (h : i < 2 * unitCount r) (b : List Byte) :
    (encR r b).getD i 0 = (unitsOf (strideFields (paddedStride r b))).getD i 0 := by
  rw [encR_eq_take, List.getD_eq_getElem?_getD, List.getD_eq_getElem?_getD, List.getElem?_take_of_lt h]

/-- A partial group has between one and four units. -/
theorem unitCount_bounds {r : Nat} (h1 : 1 ≤ r) (h6 : r ≤ 6) : 1 ≤ unitCount r ∧ unitCount r ≤ 4 := by
  interval_cases r <;> decide

theorem unfield_last_encR {r : Nat} (h1 : 1 ≤ r) (h6 : r ≤ 6) (b : List Byte) :
    unfield ((encR r b).getD (2 * (unitCount r - 1)) 0) ((encR r b).getD (2 * (unitCount r - 1) + 1) 0) =
      fieldAt (unitCount r - 1) (strideFields (paddedStride r b)) := by
  have hu := unitCount_bounds h1 h6
  rw [getD_encR (by omega), getD_encR (by omega), unfield_unitsOf (by omega)]

theorem decR_encR {r : Nat} {b : List Byte} (h6 : r ≤ 6) (hb : b.length = r) : decR r (encR r b) = b := by
  rw [encR_eq_take, decR_take_unitsOf h6, take_bytesOf_paddedStride h6 hb]

theorem decR_encR_or_last {r : Nat} {b : List Byte} {k : Field} (h1 : 1 ≤ r) (h6 : r ≤ 6) (hb : b.length = r)
    (hk : k.toNat < 2 ^ spareBits r) :
    decR r ((encR r b).take (2 * (unitCount r - 1)) ++
      unit (fieldAt (unitCount r - 1) (strideFields (paddedStride r b)) ||| k)) = b := by
  have hu := unitCount_bounds h1 h6
  have hlast : unitCount r - 1 + 1 = unitCount r := by omega
  rw [encR_eq_take, List.take_take, Nat.min_eq_left (by omega), take_unitsOf_append_or (by omega), hlast,
    decR_take_unitsOf h6, take_bytesOf_orField h1 h6 hk, take_bytesOf_paddedStride h6 hb]

/-- Settles O22: the bytes below `r` read no spare bit of the last field and no later field. -/
theorem partialGroupInverse : Obligations.PartialGroupInverse := by
  intro r b h1 h6 hb
  simp only [← unitCount_eq_table, ← spareBits_eq_table, unfield_last_encR h1 h6]
  exact ⟨decR_encR h6 hb, fun k hk => decR_encR_or_last h1 h6 hb hk⟩

theorem getD_paddedStride_of_le {r i : Nat} {b : List Byte} (hb : b.length = r) (h : r ≤ i) :
    (paddedStride r b).getD i 0 = 0 := by
  rw [paddedStride, List.getD_append_right _ _ _ _ (by omega), List.getD_eq_getElem?_getD,
    List.getElem?_replicate]
  split <;> rfl

/-- The bits of the last unit below the last byte come from the padding. -/
theorem spareBits_of_last_eq_zero {r : Nat} {b : List Byte} (h1 : 1 ≤ r) (h6 : r ≤ 6) (hb : b.length = r) :
    (fieldAt (unitCount r - 1) (strideFields (paddedStride r b))).toNat % 2 ^ spareBits r = 0 := by
  have pad {i : Nat} (h : r ≤ i) : (paddedStride r b).getD i 0 = 0 := getD_paddedStride_of_le hb h
  unfold strideFields fields fieldAt
  interval_cases r <;> simp only [pad, unitCount, spareBits, Nat.le_refl, Nat.reduceLeDiff]
  all_goals simp [↓BitVec.toNat_append, Nat.shiftLeft_eq, Nat.mul_assoc]

/-- Settles O23: the last unit is that of the padded stride's field, whose spare bits are padding. -/
theorem spareBitsAreZero : Obligations.SpareBitsAreZero := by
  intro r b h1 h6 hb
  rw [← unitCount_eq_table, ← spareBits_eq_table, unfield_last_encR h1 h6]
  exact spareBits_of_last_eq_zero h1 h6 hb

/-! ### The loop over the per-byte table (R65) -/

/-- A zero byte puts nothing into the fields. -/
theorem orRow_zero (i : Nat) (f : Fields) : orRow i 0 f = f := by
  obtain ⟨f0, f1, f2, f3⟩ := f
  simp only [orRow]
  split <;> simp

theorem orRows_append (b c : List Byte) (i : Nat) (f : Fields) :
    orRows i (b ++ c) f = orRows (i + b.length) c (orRows i b f) := by
  induction b generalizing i f with
  | nil => rfl
  | cons x b ih =>
    rw [List.cons_append, orRows, ih, orRows, List.length_cons, Nat.add_assoc, Nat.add_comm 1]

theorem orRows_zeros (n i : Nat) (f : Fields) : orRows i (List.replicate n 0) f = f := by
  induction n generalizing i with
  | zero => rfl
  | succ n ih => rw [List.replicate_succ, orRows, orRow_zero, ih]

theorem orRows_eq_strideFields {b : List Byte} (h : b.length = 7) : orRows 0 b (0, 0, 0, 0) = strideFields b := by
  match b, h with
  | [b0, b1, b2, b3, b4, b5, b6], _ =>
    refine .trans ?_ (fields_eq_shifts b0 b1 b2 b3 b4 b5 b6).symm
    simp [orRows, orRow]

/-- Settles O24: the loop over seven bytes gives `FIELDS`, and zero bytes add nothing to the fields. -/
theorem partialGroupByRowTable : Obligations.PartialGroupByRowTable := by
  intro r b _ h6 hb
  have rows : strideFields (paddedStride r b) = orRows 0 b (0, 0, 0, 0) := by
    rw [← orRows_eq_strideFields (length_paddedStride h6 hb), paddedStride, orRows_append, orRows_zeros]
  rw [encR_eq_take, rows, encRByRows, List.take_of_length_le hb.le]

end Sys2Proof.Machine
end

section
/-! PROOFS. The length calculators ENCLEN and DECLEN and their laws (spec/41_length.md). -/

namespace Sys2Proof.Machine

open Sys2Proof.Safety

/-! ### The costs of a remainder that the length rules turn on -/

theorem cost_le_six {r : Nat} (h : r ≤ 3) : cost r ≤ 6 := by
  interval_cases r <;> decide

theorem eight_le_cost {r : Nat} (h4 : 4 ≤ r) (h6 : r ≤ 6) : 8 ≤ cost r := by
  interval_cases r <;> decide

theorem le_cost {r : Nat} (h : r ≤ 6) : r ≤ cost r := by
  interval_cases r <;> decide

theorem cost_even (r : Nat) : cost r % 2 = 0 := by
  unfold cost; split <;> rfl

theorem encodedLength_eq_cost (n : Nat) : encodedLength n = 8 * (n / 7) + cost (n % 7) := (encodedLen_eq n).symm

theorem decodedLength_eq_cost (n off : Nat) : decodedLength n off = (n - cost off) / 8 * 7 + off :=
  (decodedLen_eq n off).symm

/-! ### ENCLEN (R70) -/

/-- Past the last `0x1FFFFFFF` full groups that 32 bits can count, six more bytes fit and eight do not. -/
theorem encodedLength_lt_iff (n : Nat) : encodedLength n < 2 ^ 32 ↔ n < firstTooLong := by
  rw [encodedLength_eq_cost, firstTooLong]
  have hmax := cost_le (n % 7)
  rcases Nat.lt_or_ge (n % 7) 4 with hr | hr
  · have hfit : cost (n % 7) ≤ 6 := cost_le_six (by omega)
    omega
  · have hover : 8 ≤ cost (n % 7) := eight_le_cost hr (by omega)
    omega

theorem exec_encLen_of_fits {n : Nat} (h : encodedLength n < 2 ^ 32) (s : State) :
    exec (.encLen n) s = .next { s with response := some ⟨.ok, BitVec.ofNat 32 (encodedLength n)⟩ } := by
  rw [← encodedLen_eq] at h ⊢
  exact if_neg (Nat.not_le_of_lt h)

theorem exec_encLen_of_tooLong {n : Nat} (h : 2 ^ 32 ≤ encodedLength n) (s : State) :
    exec (.encLen n) s = .next { s with response := some ⟨.invalidInputLength, 0⟩ } := by
  rw [← encodedLen_eq] at h
  exact if_pos h

/-- Settles O13: the length fits exactly below 0xDFFFFFFD. -/
theorem encLenResult : Obligations.EncLenResult := by
  refine fun n s => ⟨fun h => ?_, fun h => ?_⟩
  · have hfits := (encodedLength_lt_iff n).mpr h
    exact ⟨exec_encLen_of_fits hfits s, hfits⟩
  · have hover : 2 ^ 32 ≤ encodedLength n := Nat.le_of_not_lt ((encodedLength_lt_iff n).not.mpr (Nat.not_lt.mpr h))
    exact ⟨exec_encLen_of_tooLong hover s, hover⟩

/-! ### DECLEN (R71) -/

theorem exec_decLen_of_rejected {n off : Nat} (h : 6 < off ∨ n < cost off) (s : State) :
    exec (.decLen n off) s = .next { s with response := some ⟨.invalidInputLength, 0⟩ } := by
  change execDecLen n off s = _
  unfold execDecLen
  split
  · rfl
  · exact if_pos (by omega)

theorem exec_decLen_of_accepted {n off : Nat} (h6 : off ≤ 6) (hc : cost off ≤ n) (s : State) :
    exec (.decLen n off) s = .next { s with response := some ⟨.ok, BitVec.ofNat 32 (decodedLength n off)⟩ } := by
  change execDecLen n off s = _
  rw [execDecLen, if_neg (by omega), if_neg (by omega), decodedLen_eq, respond_eq]

/-- A remainder costs at least its own bytes, and a full group more than its seven. -/
theorem decodedLength_le {n off : Nat} (h6 : off ≤ 6) (hc : cost off ≤ n) : decodedLength n off ≤ n := by
  have := le_cost h6
  rw [decodedLength_eq_cost]
  omega

/-- Settles O14: the two tests of DECLEN, and the length otherwise. -/
theorem decLenResult : Obligations.DecLenResult := by
  intro n off s _
  rw [← cost_eq_table]
  exact ⟨fun h => exec_decLen_of_rejected (by omega) s,
    fun h6 hc => ⟨exec_decLen_of_accepted h6 hc s, decodedLength_le h6 hc⟩⟩

/-! ### The length laws (R72) -/

/-- Without the remainder's cost the encoded length is eight bytes for each full group of seven. -/
theorem decodedLength_encodedLength (n : Nat) : decodedLength (encodedLength n) (n % 7) = n := by
  rw [decodedLength_eq_cost, encodedLength_eq_cost]
  omega

theorem encodedLength_even (n : Nat) : encodedLength n % 2 = 0 := by
  have := cost_even (n % 7)
  rw [encodedLength_eq_cost]
  omega

theorem encodedLength_of_wholeStrides {n : Nat} (h : n % 7 = 0) : encodedLength n = n / 7 * 8 := by
  rw [encodedLength_eq_cost, h, cost_zero]
  omega

/-- DECLEN's function is a left inverse of the length and the remainder taken together. -/
theorem eq_of_encodedLength_eq_of_mod_eq {n m : Nat} (hlen : encodedLength n = encodedLength m)
    (hmod : n % 7 = m % 7) : n = m := by
  rw [← decodedLength_encodedLength n, hlen, hmod, decodedLength_encodedLength]

theorem exec_decLen_encodedLength (n : Nat) (s : State) :
    exec (.decLen (encodedLength n) (n % 7)) s = .next { s with response := some ⟨.ok, BitVec.ofNat 32 n⟩ } := by
  have hcost : cost (n % 7) ≤ encodedLength n := by rw [encodedLength_eq_cost]; omega
  rw [exec_decLen_of_accepted (by omega) hcost, decodedLength_encodedLength]

/-- Settles O15: DECLEN undoes the encoded length, which with the remainder therefore determines the plaintext's. -/
theorem lengthLaws : Obligations.LengthLaws :=
  ⟨fun n s _ => exec_decLen_encodedLength n s, encodedLength_even,
    fun data => (length_encodeData data).trans (encodedLen_eq _), fun _ => encodedLength_of_wholeStrides,
    fun _ _ => eq_of_encodedLength_eq_of_mod_eq, rfl, rfl, rfl⟩

end Sys2Proof.Machine
end

section
/-! PROOFS. ENCODE (spec/42_encode.md): the encoding as whole groups, a partial group and a marker, and the two
commands that store it. -/

namespace Sys2Proof.Machine

open Sys2Proof.Safety

/-! ### The encoding of a plaintext put together from parts (R75, R76) -/

/-- The encoding of the first `q` strides (R75). -/
def encodeStrides (q : Nat) (data : List Byte) : List Byte :=
  (List.range q).flatMap fun g => encStride ((data.drop (stride * g)).take stride)

/-- The marker of a remainder: nothing for whole strides (R39, R40). -/
def remainderMarker (r : Nat) : List Byte := if r = 0 then [] else [marker, BitVec.ofNat 8 r]

/-- Without a remainder the partial group is empty like its marker. -/
theorem encR_append_marker (r : Nat) (b : List Byte) :
    encR r b ++ remainderMarker r = if r = 0 then [] else encR r b ++ [marker, BitVec.ofNat 8 r] := by
  unfold remainderMarker
  split
  next h => rw [h]; rfl
  next => rfl

theorem encodeData_eq (data : List Byte) :
    encodeData data = encodeStrides (data.length / 7) data ++
      (encR (data.length % 7) ((data.drop (7 * (data.length / 7))).take (data.length % 7)) ++
        remainderMarker (data.length % 7)) := by
  rw [encR_append_marker]
  rfl

theorem encodeData_of_whole {data : List Byte} (h : data.length % 7 = 0) :
    encodeData data = encodeStrides (data.length / 7) data := by
  rw [encodeData_eq, h]
  exact List.append_nil _

theorem encodeStrides_append {k : Nat} {x : List Byte} (hx : x.length = 7 * k) (q : Nat) (y : List Byte) :
    encodeStrides (k + q) (x ++ y) = encodeStrides k x ++ encodeStrides q y := by
  simp only [encodeStrides, stride, List.range_add, List.flatMap_append, List.flatMap_map]
  congr 1
  · refine List.flatMap_congr fun g hg => ?_
    have hg : g < k := List.mem_range.mp hg
    rw [List.drop_append_of_le_length (by omega), List.take_append_of_le_length (by rw [List.length_drop]; omega)]
  · refine List.flatMap_congr fun g _ => ?_
    rw [Nat.mul_add, ← hx, List.drop_length_add_append]

/-- Settles O28: the strides of the first part come first, and the second part keeps its strides and its remainder. -/
theorem encodeOfChunks : Obligations.EncodeOfChunks := by
  intro x y hwhole
  obtain ⟨k, hx⟩ : ∃ k, x.length = 7 * k := Nat.dvd_of_mod_eq_zero hwhole
  have hdiv : (x ++ y).length / 7 = k + y.length / 7 := by rw [List.length_append]; omega
  have hmod : (x ++ y).length % 7 = y.length % 7 := by rw [List.length_append]; omega
  have hk : x.length / 7 = k := by omega
  rw [encodeData_eq (x ++ y), hdiv, hmod, encodeStrides_append hx, Nat.mul_add, ← hx, List.drop_length_add_append,
    List.append_assoc, encodeData_of_whole hwhole, hk, encodeData_eq y]

theorem encodeData_stride {b : List Byte} (h : b.length = 7) : encodeData b = encStride b := by
  rw [encodeData_of_whole (by rw [h]), h]
  simp [encodeStrides, stride, List.take_of_length_le h.le]

theorem encodeData_partial {b : List Byte} (h : b.length < 7) :
    encodeData b = encR b.length b ++ remainderMarker b.length := by
  rw [encodeData_eq, Nat.mod_eq_of_lt h, Nat.div_eq_of_lt h]
  simp [encodeStrides]

/-! ### The encoding is code units and a marker (R42) -/

/-- A list of whole code units, each of some field. -/
def IsUnits (e : List Byte) : Prop := ∃ fs : List Field, e = fs.flatMap unit

theorem IsUnits.append {e e' : List Byte} : IsUnits e → IsUnits e' → IsUnits (e ++ e')
  | ⟨fs, h⟩, ⟨fs', h'⟩ => ⟨fs ++ fs', by rw [h, h', List.flatMap_append]⟩

theorem take_flatMap_unit (u : Nat) (fs : List Field) : (fs.flatMap unit).take (2 * u) = (fs.take u).flatMap unit := by
  induction u generalizing fs with
  | zero => rfl
  | succ u ih =>
    cases fs with
    | nil => simp
    | cons f fs => simp [unit, Nat.mul_add, ih]

theorem IsUnits.take {e : List Byte} (u : Nat) : IsUnits e → IsUnits (e.take (2 * u))
  | ⟨fs, h⟩ => ⟨fs.take u, by rw [h, take_flatMap_unit]⟩

theorem isUnits_unitsOf (f : Fields) : IsUnits (unitsOf f) := by
  obtain ⟨f0, f1, f2, f3⟩ := f
  exact ⟨[f0, f1, f2, f3], by simp [unitsOf]⟩

theorem isUnits_encR (r : Nat) (b : List Byte) : IsUnits (encR r b) := by
  rw [encR_eq_take]
  exact (isUnits_unitsOf _).take _

theorem isUnits_encodeStrides (q : Nat) (data : List Byte) : IsUnits (encodeStrides q data) := by
  induction q with
  | zero => exact ⟨[], rfl⟩
  | succ q ih =>
    rw [encodeStrides, List.range_succ, List.flatMap_append, List.flatMap_singleton, encStride_eq_units]
    exact ih.append (isUnits_unitsOf _)

theorem length_encodeStrides (q : Nat) (data : List Byte) : (encodeStrides q data).length = 8 * q := by
  simp [encodeStrides, List.length_flatMap, Nat.mul_comm]

/-- Every aligned pair of bytes is a field's unit, and those lie in the alphabet (R35). -/
theorem IsUnits.inAlphabet {e : List Byte} (h : IsUnits e) {k : Nat} (hk : 2 * k + 2 ≤ e.length) :
    InAlphabet (e.getD (2 * k) 0) (e.getD (2 * k + 1) 0) := by
  obtain ⟨fs, rfl⟩ := h
  induction k generalizing fs with
  | zero =>
    cases fs with
    | nil => simp at hk
    | cons f fs => exact inAlphabet_unit f
  | succ k ih =>
    cases fs with
    | nil => simp at hk
    | cons f fs =>
      rw [List.flatMap_cons, List.length_append, length_unit] at hk
      exact ih fs (by omega)

/-- The encoding is `8q + 2 U[r]` bytes of code units and then the marker. -/
theorem encodeData_eq_units (data : List Byte) :
    ∃ units, encodeData data = units ++ remainderMarker (data.length % 7) ∧ IsUnits units ∧
      units.length = 8 * (data.length / 7) + 2 * unitCount (data.length % 7) := by
  refine ⟨_, (encodeData_eq data).trans (List.append_assoc ..).symm,
    (isUnits_encodeStrides ..).append (isUnits_encR ..), ?_⟩
  rw [List.length_append, length_encodeStrides, length_encR]

theorem wellFormedBuffer_encodeData (data : List Byte) : WellFormedBuffer data.length (encodeData data) := by
  refine ⟨(length_encodeData data).trans (encodedLen_eq _), ?_⟩
  obtain ⟨units, hdata, hunits, hlen⟩ := encodeData_eq_units data
  rw [hdata, ← unitCount_eq_table, ← hlen]
  refine ⟨fun k hk => ?_, fun hr => ?_⟩
  · rw [List.getD_append _ _ _ _ (by omega), List.getD_append _ _ _ _ (by omega)]
    exact hunits.inAlphabet hk
  · rw [remainderMarker, if_neg hr]
    exact List.drop_left' (by simp)

/-! ### The encoding of the bytes of a buffer -/

/-- A read of consecutive bytes is a read of the first of them and a read of the rest. -/
theorem memRead_add (m : Memory) (b : Binding) (i n k : Nat) :
    memRead m b i (n + k) = memRead m b i n ++ memRead m b (i + n) k := by
  simp only [memRead, Memory.readBytes_add, Nat.add_assoc]

@[simp] theorem length_memRead (m : Memory) (b : Binding) (i n : Nat) : (memRead m b i n).length = n :=
  Memory.length_readBytes m n _

/-- A read of part of what a `MemWrite` stored. -/
theorem memRead_memWrite_part (m : Memory) (b : Binding) (i : Nat) (pre mid post : List Byte) :
    memRead (memWrite m b i (pre ++ mid ++ post)) b (i + pre.length) mid.length = mid := by
  have whole := memRead_memWrite m b i (pre ++ mid ++ post)
  rw [List.length_append, List.length_append, memRead_add, memRead_add] at whole
  have front := List.append_inj_left whole (by simp)
  exact List.append_inj_right front (by simp)

theorem length_encodeData_memRead_strides (m : Memory) (b : Binding) (i g : Nat) :
    (encodeData (memRead m b i (7 * g))).length = 8 * g := by
  rw [length_encodeData_memRead, encodedLen_eq, encodedLength_of_wholeStrides (by omega)]
  omega

/-- The encoding after whole strides, which are `g` groups, is that of the bytes behind them. -/
theorem encodeData_memRead_add (m : Memory) (b : Binding) (i g n : Nat) :
    encodeData (memRead m b i (7 * g + n)) =
      encodeData (memRead m b i (7 * g)) ++ encodeData (memRead m b (i + 7 * g) n) := by
  rw [memRead_add, encodeOfChunks _ _ (by simp)]

/-- Group `g` of the encoding is `ENC7` of stride `g` (R75). -/
theorem encodeData_memRead_group (m : Memory) (src : Binding) {g n : Nat} (h : g < n / 7) :
    ∃ post, encodeData (memRead m src 0 n) =
      encodeData (memRead m src 0 (7 * g)) ++ encStride (memRead m src (7 * g) 7) ++ post := by
  obtain ⟨k, rfl⟩ : ∃ k, n = 7 * g + (7 * 1 + k) := ⟨n - 7 * g - 7, by omega⟩
  rw [encodeData_memRead_add, encodeData_memRead_add, Nat.zero_add, Nat.mul_one,
    encodeData_stride (length_memRead ..), ← List.append_assoc]
  exact ⟨_, rfl⟩

/-- The groups are followed by the partial group and the marker (R75). -/
theorem encodeData_memRead_partial (m : Memory) (src : Binding) {n : Nat} (h : n % 7 ≠ 0) :
    encodeData (memRead m src 0 n) =
      encodeData (memRead m src 0 (7 * (n / 7))) ++ encR (n % 7) (memRead m src (7 * (n / 7)) (n % 7)) ++
        [marker, BitVec.ofNat 8 (n % 7)] := by
  have hsplit := encodeData_memRead_add m src 0 (n / 7) (n % 7)
  have htail := encodeData_partial (b := memRead m src (7 * (n / 7)) (n % 7)) (by rw [length_memRead]; omega)
  rw [length_memRead, remainderMarker, if_neg h] at htail
  rw [Nat.div_add_mod, Nat.zero_add, htail, ← List.append_assoc] at hsplit
  exact hsplit

/-! ### What ENCODE answers (R75) -/

/-- Both variants are the one command, with their slack. -/
theorem exec_of_encodeVariant {i : Instr} {slack n : Nat} {src dst : Binding}
    (h : (i = .encodeC n src dst ∧ slack = 0) ∨ (i = .encodeU n src dst ∧ slack = 6)) (s : State) :
    exec i s = encodeCommand slack n src dst s := by
  rcases h with ⟨rfl, rfl⟩ | ⟨rfl, rfl⟩ <;> rfl

/-- The state ENCODE leaves when the length fits. -/
def afterEncode (n : Nat) (src dst : Binding) (s : State) : State :=
  { s with
    mem := memWrite s.mem dst 0 (encodeData (memRead s.mem src 0 n))
    response := some ⟨.ok, BitVec.ofNat 32 (encodedLength n)⟩ }

/-- Under its duties ENCODE tests the length only. -/
theorem encodeCommand_of_duties {slack n : Nat} {src dst : Binding} (hsrc : n + slack ≤ src.cap)
    (hdst : encodedLength n ≤ dst.cap) (hapart : Apart src dst) (s : State) :
    encodeCommand slack n src dst s =
      if lengthBound ≤ encodedLength n then raise .invalidInputLength s else .next (afterEncode n src dst s) := by
  have hover : ¬ src.overlaps dst = true := by simp [(overlaps_eq_false_iff src dst).mpr hapart]
  rw [encodeCommand, encodedLen_eq, if_neg (by omega), if_neg (by omega), if_neg hover]
  rfl

theorem encodeCommand_of_tooLong {slack n : Nat} {src dst : Binding} (hn : firstTooLong ≤ n)
    (hsrc : n + slack ≤ src.cap) (hdst : encodedLength n ≤ dst.cap) (hapart : Apart src dst) (s : State) :
    encodeCommand slack n src dst s = .next { s with response := some ⟨.invalidInputLength, 0⟩ } := by
  have hlong : ¬ encodedLength n < lengthBound := (encodedLength_lt_iff n).not.mpr (Nat.not_lt.mpr hn)
  rw [encodeCommand_of_duties hsrc hdst hapart, if_pos (Nat.not_lt.mp hlong), raise_eq]

theorem encodeCommand_of_fits {slack n : Nat} {src dst : Binding} (hn : n < firstTooLong)
    (hsrc : n + slack ≤ src.cap) (hdst : encodedLength n ≤ dst.cap) (hapart : Apart src dst) (s : State) :
    encodeCommand slack n src dst s = .next (afterEncode n src dst s) := by
  have hfits : encodedLength n < lengthBound := (encodedLength_lt_iff n).mpr hn
  rw [encodeCommand_of_duties hsrc hdst hapart, if_neg (Nat.not_le.mpr hfits)]

theorem encodeCommand_of_noRoom {slack n : Nat} {src dst : Binding}
    (h : src.cap < n + slack ∨ dst.cap < encodedLength n) (s : State) :
    ∃ r, encodeCommand slack n src dst s = .refused r := by
  rw [← encodedLen_eq] at h
  by_cases hsrc : src.cap < n + slack
  · exact ⟨_, if_pos hsrc⟩
  · exact ⟨_, (if_neg hsrc).trans (if_pos (h.resolve_left hsrc))⟩

/-! ### What ENCODE stores -/

theorem memRead_afterEncode (n : Nat) (src dst : Binding) (s : State) :
    memRead (afterEncode n src dst s).mem dst 0 (encodedLength n) = encodeData (memRead s.mem src 0 n) := by
  rw [← encodedLen_eq, ← length_encodeData_memRead s.mem src 0 n]
  exact memRead_memWrite ..

theorem memRead_afterEncode_part {n : Nat} {src : Binding} {s : State} {pre mid post : List Byte}
    (h : encodeData (memRead s.mem src 0 n) = pre ++ mid ++ post) (dst : Binding) :
    memRead (afterEncode n src dst s).mem dst pre.length mid.length = mid := by
  have part := memRead_memWrite_part s.mem dst 0 pre mid post
  rwa [← h, Nat.zero_add] at part

theorem memRead_afterEncode_group {g n : Nat} (h : g < n / 7) (src dst : Binding) (s : State) :
    memRead (afterEncode n src dst s).mem dst (8 * g) 8 = encStride (memRead s.mem src (7 * g) 7) := by
  obtain ⟨post, hpost⟩ := encodeData_memRead_group s.mem src h
  simpa [length_encodeData_memRead_strides] using memRead_afterEncode_part hpost dst

theorem memRead_afterEncode_partial {n : Nat} (h : n % 7 ≠ 0) (src dst : Binding) (s : State) :
    memRead (afterEncode n src dst s).mem dst (8 * (n / 7)) (2 * unitCount (n % 7)) =
      encR (n % 7) (memRead s.mem src (7 * (n / 7)) (n % 7)) := by
  simpa [length_encodeData_memRead_strides] using
    memRead_afterEncode_part (encodeData_memRead_partial s.mem src h) dst

theorem memRead_afterEncode_marker {n : Nat} (h : n % 7 ≠ 0) (src dst : Binding) (s : State) :
    memRead (afterEncode n src dst s).mem dst (8 * (n / 7) + 2 * unitCount (n % 7)) 2 =
      [marker, BitVec.ofNat 8 (n % 7)] := by
  have last := (encodeData_memRead_partial s.mem src h).trans (List.append_nil _).symm
  simpa [length_encodeData_memRead_strides] using memRead_afterEncode_part last dst

theorem sameOutside_afterEncode (n : Nat) (src dst : Binding) (s : State) :
    SameOutside s.mem (afterEncode n src dst s).mem dst.base (encodedLength n) := by
  intro x hx
  apply read_memWrite_outside
  rwa [length_encodeData_memRead, encodedLen_eq]

/-! ### The statements -/

/-- Settles O25: one command for both variants; each part of the encoding is read back where it was stored. -/
theorem encodeResult : Obligations.EncodeResult := by
  intro i slack n src dst s hvariant
  rw [exec_of_encodeVariant hvariant]
  refine ⟨fun hn hsrc hdst hapart => encodeCommand_of_tooLong hn hsrc hdst hapart s,
    fun hn hsrc hdst hapart => ⟨_, encodeCommand_of_fits hn hsrc hdst hapart s, rfl, fun g hg => ?_, fun hr => ?_, ?_⟩,
    fun h => encodeCommand_of_noRoom h s⟩
  · exact memRead_afterEncode_group hg src dst s
  · rw [← unitCount_eq_table]
    exact ⟨memRead_afterEncode_partial hr src dst s, memRead_afterEncode_marker hr src dst s⟩
  · exact sameOutside_afterEncode n src dst s

/-- Settles O26: what is read back is the encoding of the plaintext, which is a well-formed buffer. -/
theorem encodeWritesWellFormedBuffer : Obligations.EncodeWritesWellFormedBuffer := by
  intro n src dst s hn hsrc hdst hapart
  refine ⟨_, encodeCommand_of_fits (slack := 0) hn hsrc hdst hapart s, ?_⟩
  simpa [memRead_afterEncode] using wellFormedBuffer_encodeData (memRead s.mem src 0 n)

/-- Settles O27: both variants answer the length and store the encoding of the same plaintext bytes. -/
theorem encodeVariantsAgree : Obligations.EncodeVariantsAgree := by
  intro n src dst s s' hn hsrc hdst hapart hplain
  have same : memRead s.mem src 0 n = memRead s'.mem src 0 n := Memory.readBytes_congr _ _ n _ _ hplain
  refine ⟨_, _, encodeCommand_of_fits (slack := 0) hn (by omega) hdst hapart s,
    encodeCommand_of_fits (slack := 6) hn hsrc hdst hapart s', rfl, ?_⟩
  rw [memRead_afterEncode, memRead_afterEncode, same]

end Sys2Proof.Machine
end

section
/-! PROOFS. DECODE (spec/43_decode.md): the decoding as whole groups and a partial group, the two commands that store
it, and DECODE after ENCODE. -/

namespace Sys2Proof.Machine

open Sys2Proof.Safety

/-! ### The decoding of an encoded buffer put together from parts (R80, R82) -/

/-- The decoding of the first `q` groups (R80). -/
def decodeGroups (q : Nat) (data : List Byte) : List Byte :=
  (List.range q).flatMap fun g => decGroup ((data.drop (groupBytes * g)).take groupBytes)

/-- Without a remainder the partial group decodes to nothing. -/
theorem decodeData_eq (off : Nat) (data : List Byte) :
    decodeData off data = decodeGroups ((data.length - cost off) / 8) data ++
      decR off ((data.drop (8 * ((data.length - cost off) / 8))).take (2 * unitCount off)) := by
  by_cases h : off = 0
  · rw [h]; rfl
  · rw [decodeData, if_neg h]; rfl

theorem decodeData_zero (data : List Byte) : decodeData 0 data = decodeGroups (data.length / 8) data :=
  (decodeData_eq 0 data).trans (List.append_nil _)

theorem decodeGroups_append {k : Nat} {x : List Byte} (hx : x.length = 8 * k) (q : Nat) (y : List Byte) :
    decodeGroups (k + q) (x ++ y) = decodeGroups k x ++ decodeGroups q y := by
  simp only [decodeGroups, groupBytes, List.range_add, List.flatMap_append, List.flatMap_map]
  congr 1
  · refine List.flatMap_congr fun g hg => ?_
    have hg : g < k := List.mem_range.mp hg
    rw [List.drop_append_of_le_length (by omega), List.take_append_of_le_length (by rw [List.length_drop]; omega)]
  · refine List.flatMap_congr fun g _ => ?_
    rw [Nat.mul_add, ← hx, List.drop_length_add_append]

/-- Settles O34: the groups of the first part come first, and the second part keeps its groups and its remainder. -/
theorem decodeOfChunks : Obligations.DecodeOfChunks := by
  intro off x y _ hwhole hcost
  rw [← cost_eq_table] at hcost
  obtain ⟨k, hx⟩ : ∃ k, x.length = 8 * k := Nat.dvd_of_mod_eq_zero hwhole
  have hq : ((x ++ y).length - cost off) / 8 = k + (y.length - cost off) / 8 := by rw [List.length_append]; omega
  have hk : x.length / 8 = k := by omega
  rw [decodeData_eq off (x ++ y), hq, decodeGroups_append hx, Nat.mul_add, ← hx, List.drop_length_add_append,
    List.append_assoc, decodeData_zero, hk, decodeData_eq off y]

theorem decodeData_group {e : List Byte} (h : e.length = 8) : decodeData 0 e = decGroup e := by
  rw [decodeData_zero, h]
  simp [decodeGroups, groupBytes, List.take_of_length_le h.le]

/-- A buffer of nothing but a partial group and its marker. -/
theorem decodeData_partial {off : Nat} {e : List Byte} (h : e.length = cost off) :
    decodeData off e = decR off (e.take (2 * unitCount off)) := by
  rw [decodeData_eq, h, Nat.sub_self]
  rfl

/-! ### The decoding of the bytes of a buffer -/

theorem length_decodeData_memRead_groups (m : Memory) (b : Binding) (i g : Nat) :
    (decodeData 0 (memRead m b i (8 * g))).length = 7 * g := by
  rw [length_decodeData (by decide), length_memRead, decodedLen_eq, decodedLength_eq_cost, cost_zero]
  omega

/-- The decoding after whole groups, which are `g` strides, is that of the bytes behind them. -/
theorem decodeData_memRead_add (m : Memory) (b : Binding) (i g : Nat) {off n : Nat} (h6 : off ≤ 6)
    (hcost : cost off ≤ n) :
    decodeData off (memRead m b i (8 * g + n)) =
      decodeData 0 (memRead m b i (8 * g)) ++ decodeData off (memRead m b (i + 8 * g) n) := by
  rw [memRead_add]
  refine decodeOfChunks off _ _ h6 (by simp) ?_
  rwa [← cost_eq_table, length_memRead]

/-- What accepted input says of its remainder and its length (R80). -/
theorem bounds_of_accepts {m : Memory} {src : Binding} {n off : Nat} (h : Accepts m src n off) :
    off ≤ 6 ∧ cost off ≤ n ∧ (n - cost off) % 8 = 0 := by
  rcases h with ⟨rfl, rfl⟩ | ⟨-, hoff, hcost, hfit⟩
  · decide
  · rw [← cost_eq_table] at hcost hfit
    exact ⟨by omega, hcost, hfit⟩

/-- Stride `g` of the decoding is `DEC8` of group `g` (R80). -/
theorem decodeData_memRead_group {m : Memory} {src : Binding} {g n off : Nat} (hacc : Accepts m src n off)
    (hg : g < (n - cost off) / 8) :
    ∃ post, decodeData off (memRead m src 0 n) =
      decodeData 0 (memRead m src 0 (8 * g)) ++ decGroup (memRead m src (8 * g) 8) ++ post := by
  obtain ⟨h6, -, -⟩ := bounds_of_accepts hacc
  obtain ⟨k, rfl⟩ : ∃ k, n = 8 * g + (8 * 1 + k) := ⟨n - 8 * g - 8, by omega⟩
  rw [decodeData_memRead_add _ _ _ _ h6 (by omega), decodeData_memRead_add _ _ _ _ h6 (by omega), Nat.zero_add,
    Nat.mul_one, decodeData_group (length_memRead ..), ← List.append_assoc]
  exact ⟨_, rfl⟩

/-- The strides are followed by the partial group, whose marker is not decoded (R80). -/
theorem decodeData_memRead_partial {m : Memory} {src : Binding} {n off : Nat} (hacc : Accepts m src n off)
    (h0 : off ≠ 0) :
    decodeData off (memRead m src 0 n) =
      decodeData 0 (memRead m src 0 (8 * ((n - cost off) / 8))) ++
        decR off (memRead m src (8 * ((n - cost off) / 8)) (2 * unitCount off)) := by
  obtain ⟨h6, hcost, hfit⟩ := bounds_of_accepts hacc
  obtain ⟨q, rfl⟩ : ∃ q, n = 8 * q + cost off := ⟨(n - cost off) / 8, by omega⟩
  rw [decodeData_memRead_add _ _ _ _ h6 le_rfl, decodeData_partial (length_memRead ..), cost_eq_units h0 h6,
    memRead_add, List.take_left' (length_memRead ..), Nat.add_sub_cancel, Nat.mul_div_cancel_left _ (by decide),
    Nat.zero_add]

/-! ### What DECODE answers (R80, R81) -/

/-- The state DECODE leaves on accepted input with remainder `off`. -/
def afterDecode (off n : Nat) (src dst : Binding) (s : State) : State :=
  { s with
    mem := memWrite s.mem dst 0 (decodeData off (memRead s.mem src 0 n))
    response := some ⟨.ok, BitVec.ofNat 32 (decodedLength n off)⟩ }

/-- On accepted input both variants are the one command, where their slack is bound. -/
theorem exec_of_decodeVariant {i : Instr} {slack n off : Nat} {src dst : Binding} {s : State}
    (h : (i = .decodeC n src dst ∧ slack = 0) ∨ (i = .decodeU n src dst ∧ slack = 2)) (hsrc : n + slack ≤ src.cap)
    (hacc : Accepts s.mem src n off) : exec i s = finishDecode off n src dst s := by
  have hoff := (remainderOf_eq_some_iff ..).mpr hacc
  rcases h with ⟨rfl, rfl⟩ | ⟨rfl, rfl⟩
  · change execDecodeC n src dst s = _
    rw [execDecodeC, if_neg (by omega), hoff]
  · change execDecodeU n src dst s = _
    rw [execDecodeU, if_neg (by rw [slackDec]; omega), hoff]

theorem not_overlaps_of_apart {a b : Binding} (h : Apart a b) : ¬ a.overlaps b = true :=
  Bool.eq_false_iff.mp ((overlaps_eq_false_iff a b).mpr h)

theorem finishDecode_of_duties {off n : Nat} {src dst : Binding} (hdst : decodedLength n off ≤ dst.cap)
    (hapart : Apart src dst) (s : State) : finishDecode off n src dst s = .next (afterDecode off n src dst s) := by
  rw [finishDecode, decodedLen_eq, if_neg (by omega), if_neg (not_overlaps_of_apart hapart)]
  rfl

/-- Both variants under their duties, on accepted input. -/
theorem exec_decode_of_duties {i : Instr} {slack n off : Nat} {src dst : Binding} {s : State}
    (h : (i = .decodeC n src dst ∧ slack = 0) ∨ (i = .decodeU n src dst ∧ slack = 2)) (hsrc : n + slack ≤ src.cap)
    (hacc : Accepts s.mem src n off) (hdst : decodedLength n off ≤ dst.cap) (hapart : Apart src dst) :
    exec i s = .next (afterDecode off n src dst s) :=
  (exec_of_decodeVariant h hsrc hacc).trans (finishDecode_of_duties hdst hapart s)

theorem exec_decodeC_of_rejected {n : Nat} {src dst : Binding} {s : State} (hsrc : n ≤ src.cap)
    (hapart : Apart src dst) (hrej : ∀ off, ¬ Accepts s.mem src n off) :
    exec (.decodeC n src dst) s = .next { s with response := some ⟨.invalidInputLength, 0⟩ } := by
  change execDecodeC n src dst s = _
  rw [execDecodeC, if_neg (by omega), (remainderOf_eq_none_iff ..).mpr hrej]
  exact if_neg (not_overlaps_of_apart hapart)

theorem exec_decodeU_of_rejected {n : Nat} {src dst : Binding} {s : State} (hsrc : n + 2 ≤ src.cap)
    (hrej : ∀ off, ¬ Accepts s.mem src n off) :
    exec (.decodeU n src dst) s = .refused .uncheckedMalformedInput := by
  change execDecodeU n src dst s = _
  rw [execDecodeU, if_neg (by rw [slackDec]; omega), (remainderOf_eq_none_iff ..).mpr hrej]

/-- There is no fault, so what answers no next state is refused (R8). -/
theorem exists_refused_of_ne_next {o : Host.Outcome State Fault Refusal} (h : ∀ t, o ≠ .next t) :
    ∃ r, o = .refused r := by
  cases o with
  | next t => exact absurd rfl (h t)
  | fault f => cases f
  | refused r => exact ⟨r, rfl⟩

/-! ### What DECODE stores -/

theorem memRead_afterDecode_part {off n : Nat} {src : Binding} {s : State} {pre mid post : List Byte}
    (h : decodeData off (memRead s.mem src 0 n) = pre ++ mid ++ post) (dst : Binding) :
    memRead (afterDecode off n src dst s).mem dst pre.length mid.length = mid := by
  have part := memRead_memWrite_part s.mem dst 0 pre mid post
  rwa [← h, Nat.zero_add] at part

theorem memRead_afterDecode_group {off g n : Nat} {src : Binding} {s : State} (hacc : Accepts s.mem src n off)
    (hg : g < (n - cost off) / 8) (dst : Binding) :
    memRead (afterDecode off n src dst s).mem dst (7 * g) 7 = decGroup (memRead s.mem src (8 * g) 8) := by
  obtain ⟨post, hpost⟩ := decodeData_memRead_group hacc hg
  simpa [length_decodeData_memRead_groups] using memRead_afterDecode_part hpost dst

theorem memRead_afterDecode_partial {off n : Nat} {src : Binding} {s : State} (hacc : Accepts s.mem src n off)
    (h0 : off ≠ 0) (dst : Binding) :
    memRead (afterDecode off n src dst s).mem dst (7 * ((n - cost off) / 8)) off =
      decR off (memRead s.mem src (8 * ((n - cost off) / 8)) (2 * unitCount off)) := by
  have last := (decodeData_memRead_partial hacc h0).trans (List.append_nil _).symm
  simpa [length_decodeData_memRead_groups, length_decR (bounds_of_accepts hacc).1] using
    memRead_afterDecode_part last dst

theorem length_decodeData_of_accepts {m : Memory} {src : Binding} {n off : Nat} (hacc : Accepts m src n off) :
    (decodeData off (memRead m src 0 n)).length = decodedLength n off :=
  (length_decodeData_memRead ((remainderOf_eq_some_iff ..).mpr hacc)).trans (decodedLen_eq n off)

theorem memRead_afterDecode {off n : Nat} {src : Binding} {s : State} (hacc : Accepts s.mem src n off)
    (dst : Binding) :
    memRead (afterDecode off n src dst s).mem dst 0 (decodedLength n off) =
      decodeData off (memRead s.mem src 0 n) := by
  rw [← length_decodeData_of_accepts hacc]
  exact memRead_memWrite ..

theorem sameOutside_afterDecode {off n : Nat} {src : Binding} {s : State} (hacc : Accepts s.mem src n off)
    (dst : Binding) : SameOutside s.mem (afterDecode off n src dst s).mem dst.base (decodedLength n off) := by
  intro x hx
  apply read_memWrite_outside
  rwa [length_decodeData_of_accepts hacc]

/-! ### The statements about DECODE alone -/

/-- Settles O30: one command for both variants; each part of the decoding is read back where it was stored. -/
theorem decodeResult : Obligations.DecodeResult := by
  intro i slack n off src dst s hvariant hsrc hacc hdst hapart
  refine ⟨_, exec_decode_of_duties hvariant hsrc hacc hdst hapart, rfl, ?_⟩
  rw [← cost_eq_table, ← unitCount_eq_table]
  exact ⟨fun g hg => memRead_afterDecode_group hacc hg dst, fun h0 => memRead_afterDecode_partial hacc h0 dst,
    sameOutside_afterDecode hacc dst⟩

/-- Settles O31: the rejected input of the first clause is answered; in the others a next state would need the broken
duty. -/
theorem decodeCheckedErrors : Obligations.DecodeCheckedErrors := by
  refine fun n src dst s => ⟨exec_decodeC_of_rejected, fun h => exists_refused_of_ne_next fun t ht => ?_,
    fun off hacc hroom => exists_refused_of_ne_next fun t ht => ?_⟩
  · obtain ⟨hsrc, hover, -⟩ := execDecodeC_next ht
    exact h.elim (Nat.not_lt.mpr hsrc) (not_not_intro ((overlaps_eq_false_iff ..).mp hover))
  · have hoff := (remainderOf_eq_some_iff ..).mpr hacc
    obtain ⟨-, -, ⟨hnone, -⟩ | ⟨off', hoff', hcap, -⟩⟩ := execDecodeC_next ht
    · cases hoff.symm.trans hnone
    · cases hoff.symm.trans hoff'
      exact absurd hroom (Nat.not_lt.mpr (decodedLen_eq n off ▸ hcap))

/-- Settles O32: the variants differ in the slack and on rejected input only. -/
theorem decodeUncheckedFollowsChecked : Obligations.DecodeUncheckedFollowsChecked := by
  refine fun n src dst s => ⟨fun hsrc off hacc => ?_, exec_decodeU_of_rejected, fun h => if_pos h⟩
  rw [exec_of_decodeVariant (.inr ⟨rfl, rfl⟩) hsrc hacc, exec_of_decodeVariant (.inl ⟨rfl, rfl⟩) (by omega) hacc]

/-! ### DECODE after ENCODE (R82) -/

/-- Decoding undoes encoding: stride by stride, and then the partial group. -/
theorem decodeData_encodeData (data : List Byte) : decodeData (data.length % 7) (encodeData data) = data := by
  induction h : data.length / 7 generalizing data with
  | zero =>
    have hlt : data.length < 7 := by omega
    have hlen : (encodeData data).length = cost data.length := by
      rw [length_encodeData, encodedLen_eq, encodedLength_eq_cost, h, Nat.mod_eq_of_lt hlt, Nat.zero_add]
    rw [Nat.mod_eq_of_lt hlt, decodeData_partial hlen, encodeData_partial hlt, List.take_left' (length_encR ..),
      decR_encR (by omega) rfl]
  | succ q ih =>
    obtain ⟨x, y, rfl, hx⟩ : ∃ x y, data = x ++ y ∧ x.length = 7 :=
      ⟨data.take 7, data.drop 7, (List.take_append_drop ..).symm, List.length_take_of_le (by omega)⟩
    rw [List.length_append, hx] at h
    have hcost : costTable.getD (y.length % 7) 0 ≤ (encodeData y).length := by
      rw [← cost_eq_table, length_encodeData, encodedLen_eq, encodedLength_eq_cost]
      exact Nat.le_add_left ..
    have hmod : (x ++ y).length % 7 = y.length % 7 := by rw [List.length_append]; omega
    rw [hmod, encodeOfChunks x y (by omega), encodeData_stride hx, decodeOfChunks _ _ _ (by omega) (by simp) hcost,
      decodeData_group rfl, groupCodecIsBijection.1 x hx, ih y (by omega)]

theorem byteAt_eq_getD_memRead (m : Memory) (b : Binding) {i n : Nat} (h : i < n) :
    byteAt m b i = (memRead m b 0 n).getD i 0 :=
  (m.getD_readBytes n b.base i h).symm

theorem two_le_encodedLength {n : Nat} (h : n ≠ 0) : 2 ≤ encodedLength n := by
  have heven := encodedLength_even n
  have hcost := le_cost (r := n % 7) (by omega)
  rw [encodedLength_eq_cost] at *
  omega

/-- The last two bytes of an encoding with a partial group are its marker (R39). -/
theorem encodeData_ends_with_marker {data : List Byte} (hr : data.length % 7 ≠ 0) :
    (encodeData data).getD (encodedLength data.length - 2) 0 = marker ∧
      (encodeData data).getD (encodedLength data.length - 1) 0 = BitVec.ofNat 8 (data.length % 7) := by
  obtain ⟨units, hdata, -, -⟩ := encodeData_eq_units data
  rw [remainderMarker, if_neg hr] at hdata
  have hlen : encodedLength data.length = units.length + 2 := by
    rw [← encodedLen_eq, ← length_encodeData, hdata, List.length_append]
    rfl
  rw [hdata, hlen, List.getD_append_right _ _ _ _ (by omega), List.getD_append_right _ _ _ _ (by omega)]
  simp

/-- The dispatcher accepts an encoding and selects the remainder of its plaintext (R56, R80). -/
theorem accepts_of_memRead_eq_encodeData {m : Memory} {b : Binding} {data : List Byte}
    (h : memRead m b 0 (encodedLength data.length) = encodeData data) :
    Accepts m b (encodedLength data.length) (data.length % 7) := by
  by_cases hne : data = []
  · subst hne
    exact .inl ⟨rfl, rfl⟩
  · have h2 : 2 ≤ encodedLength data.length := two_le_encodedLength (List.length_pos_iff.mpr hne).ne'
    have hcost : encodedLength data.length = 8 * (data.length / 7) + cost (data.length % 7) := encodedLength_eq_cost _
    refine .inr ⟨h2, ?_, by rw [← cost_eq_table]; omega, by rw [← cost_eq_table]; omega⟩
    have hbyte (k : Nat) (hk : 1 ≤ k) : byteAt m b (encodedLength data.length - k) =
        (encodeData data).getD (encodedLength data.length - k) 0 := by
      rw [← h]
      exact byteAt_eq_getD_memRead m b (by omega)
    rw [hbyte 2 (by omega), hbyte 1 le_rfl]
    by_cases hr : data.length % 7 = 0
    · have hdata := markerIsNeverData data hr hne
      rw [length_encodeData, encodedLen_eq] at hdata
      exact .inr ⟨hdata, hr⟩
    · obtain ⟨hmk, hlast⟩ := encodeData_ends_with_marker hr
      refine .inl ⟨hmk, ?_, by omega, by omega⟩
      rw [hlast, BitVec.toNat_ofNat]
      omega

/-- Settles O33: DECODE accepts what ENCODE left, selects the plaintext's remainder, and decoding undoes encoding. -/
theorem decodeOfEncodeIsPlaintext : Obligations.DecodeOfEncodeIsPlaintext := by
  intro n src mid mid' dst s enc dec henc hdec hn hmid hapart hbase hdst hapart'
  have henc : exec enc s = .next (afterEncode n src mid s) := by
    rcases henc with ⟨rfl, hsrc⟩ | ⟨rfl, hsrc⟩
    · exact encodeCommand_of_fits (slack := 0) hn hsrc hmid hapart s
    · exact encodeCommand_of_fits (slack := 6) hn hsrc hmid hapart s
  generalize ht : afterEncode n src mid s = t at henc
  have hread : memRead t.mem mid' 0 (encodedLength n) = encodeData (memRead s.mem src 0 n) := by
    rw [← memRead_afterEncode n src mid s, ht, memRead, hbase, memRead]
  have hacc : Accepts t.mem mid' (encodedLength n) (n % 7) := by
    simpa using accepts_of_memRead_eq_encodeData (data := memRead s.mem src 0 n) (by simpa using hread)
  have hlen : decodedLength (encodedLength n) (n % 7) = n := decodedLength_encodedLength n
  have hdec : exec dec t = .next (afterDecode (n % 7) (encodedLength n) mid' dst t) := by
    rcases hdec with ⟨rfl, hcap⟩ | ⟨rfl, hcap⟩
    · exact exec_decode_of_duties (.inl ⟨rfl, rfl⟩) hcap hacc (by omega) hapart'
    · exact exec_decode_of_duties (.inr ⟨rfl, rfl⟩) hcap hacc (by omega) hapart'
  refine ⟨t, _, henc, hdec, by rw [afterDecode, hlen], ?_⟩
  have hplain := decodeData_encodeData (memRead s.mem src 0 n)
  have hstored := memRead_afterDecode hacc dst
  rw [length_memRead] at hplain
  rwa [hlen, hread, hplain] at hstored

end Sys2Proof.Machine
end

section
/-! PROOFS. The checksum commands (spec/44_checksum.md): the embedded bits as numbers, the unit that holds them, what
EMBEDSUM and CHECKSUM answer, and the protocol of one chunk. -/

namespace Sys2Proof.Machine

open Sys2Proof.Safety

/-! ### WRSUM, RDSUM and CALCSUM (R88 to R90) -/

/-- Settles O37: the one answer of WRSUM. -/
theorem wrSumResult : Obligations.WrSumResult := exec_wrSum

/-- Settles O38: the one answer of RDSUM. -/
theorem rdSumResult : Obligations.RdSumResult := exec_rdSum

/-- A binding that starts `k` bytes into a buffer reads the buffer's bytes from index `k` up. -/
theorem memRead_tail {src tail : Binding} {k : Nat} (h : tail.base = src.base + k) (m : Memory) (n : Nat) :
    memRead m tail 0 n = memRead m src k n := by
  simp only [memRead, h, Nat.add_zero]

/-- Settles O39: the bytes of the block are those before the cut and those behind it, and so is their fold. -/
theorem calcSumResult : Obligations.CalcSumResult := by
  intro n src s hcap
  refine ⟨exec_calcSum_of_bound hcap, fun k hk tail hbase htail => ?_⟩
  have hcut : memRead s.mem src 0 n = memRead s.mem src 0 k ++ memRead s.mem tail 0 (n - k) := by
    have hadd := memRead_add s.mem src 0 k (n - k)
    rwa [Nat.add_sub_cancel' hk, Nat.zero_add, ← memRead_tail hbase] at hadd
  rw [execAll_cons_of_next (exec_calcSum_of_bound (hk.trans hcap)),
    execAll_cons_of_next (exec_calcSum_of_bound htail), exec_calcSum_of_bound hcap, hcut, List.foldl_append]
  rfl

/-! ### The embedded bits as numbers (R55, R91, R92) -/

/-- The shift leaves the `S[r]` top bits of the 32, which a field has room for. -/
theorem spareBits_add_checksumShift {r : Nat} (h1 : 1 ≤ r) (h6 : r ≤ 6) :
    spareBits r + checksumShift r = 32 ∧ spareBits r < 14 := by
  interval_cases r <;> decide

/-- The remainder of a plaintext without whole strides is a row of the table. -/
theorem remainder_bounds {n : Nat} (h : n % 7 ≠ 0) : 1 ≤ n % 7 ∧ n % 7 ≤ 6 := by omega

theorem shiftedAcc_lt {r : Nat} (h1 : 1 ≤ r) (h6 : r ≤ 6) (acc : Word) :
    acc.toNat / 2 ^ checksumShift r < 2 ^ spareBits r := by
  rw [Nat.div_lt_iff_lt_mul (Nat.two_pow_pos _), ← Nat.pow_add, (spareBits_add_checksumShift h1 h6).1]
  exact acc.isLt

theorem toNat_checksumBits {r : Nat} (h1 : 1 ≤ r) (h6 : r ≤ 6) (acc : Word) :
    (checksumBits acc r).toNat = acc.toNat / 2 ^ checksumShift r := by
  have hlt : acc.toNat / 2 ^ checksumShift r < 2 ^ 14 :=
    (shiftedAcc_lt h1 h6 acc).trans (Nat.pow_lt_pow_right (by decide) (spareBits_add_checksumShift h1 h6).2)
  rw [checksumBits, BitVec.toNat_setWidth, BitVec.toNat_ushiftRight, Nat.shiftRight_eq_div_pow,
    Nat.mod_eq_of_lt hlt]

theorem toNat_lowBits {k : Nat} (hk : k < 14) (f : Field) : (lowBits f k).toNat = f.toNat % 2 ^ k := by
  have hmask : ((1 <<< k : Field) - 1).toNat = 2 ^ k - 1 := by
    interval_cases k <;> rfl
  rw [lowBits, BitVec.toNat_and, hmask, Nat.and_two_pow_sub_one_eq_mod]

/-- The plaintext bits above, the accumulator's bits in the room of the spare ones. -/
theorem toNat_embedBits {r : Nat} (h1 : 1 ≤ r) (h6 : r ≤ 6) (f : Field) (acc : Word) :
    (embedBits f acc r).toNat =
      f.toNat / 2 ^ spareBits r * 2 ^ spareBits r + acc.toNat / 2 ^ checksumShift r := by
  have hfit : f.toNat / 2 ^ spareBits r * 2 ^ spareBits r < 2 ^ 14 := (Nat.div_mul_le_self ..).trans_lt f.isLt
  rw [embedBits, BitVec.toNat_or, BitVec.toNat_shiftLeft, BitVec.toNat_ushiftRight, Nat.shiftRight_eq_div_pow,
    toNat_checksumBits h1 h6, Nat.shiftLeft_eq, Nat.mod_eq_of_lt hfit, ← Nat.shiftLeft_eq,
    ← Nat.shiftLeft_add_eq_or_of_lt (shiftedAcc_lt h1 h6 acc), Nat.shiftLeft_eq]

/-- CHECKSUM's comparison as one of numbers. -/
theorem lowBits_eq_checksumBits_iff {r : Nat} (h1 : 1 ≤ r) (h6 : r ≤ 6) (f : Field) (acc : Word) :
    lowBits f (spareBits r) = checksumBits acc r ↔
      f.toNat % 2 ^ spareBits r = acc.toNat / 2 ^ checksumShift r := by
  rw [← BitVec.toNat_inj, toNat_lowBits (spareBits_add_checksumShift h1 h6).2, toNat_checksumBits h1 h6]

/-- What EMBEDSUM puts into a field is what CHECKSUM wants to find there. -/
theorem lowBits_embedBits {r : Nat} (h1 : 1 ≤ r) (h6 : r ≤ 6) (f : Field) (acc : Word) :
    lowBits (embedBits f acc r) (spareBits r) = checksumBits acc r := by
  rw [lowBits_eq_checksumBits_iff h1 h6, toNat_embedBits h1 h6, Nat.mul_add_mod',
    Nat.mod_eq_of_lt (shiftedAcc_lt h1 h6 acc)]

/-- The bits above the spare ones are the plaintext's still. -/
theorem toNat_embedBits_div {r : Nat} (h1 : 1 ≤ r) (h6 : r ≤ 6) (f : Field) (acc : Word) :
    (embedBits f acc r).toNat / 2 ^ spareBits r = f.toNat / 2 ^ spareBits r := by
  rw [toNat_embedBits h1 h6, Nat.add_comm, Nat.add_mul_div_right _ _ (Nat.two_pow_pos _),
    Nat.div_eq_of_lt (shiftedAcc_lt h1 h6 acc), Nat.zero_add]

/-- The spare bits are replaced, so what they held before does not matter. -/
theorem embedBits_embedBits {r : Nat} (h1 : 1 ≤ r) (h6 : r ≤ 6) (f : Field) (acc : Word) :
    embedBits (embedBits f acc r) acc r = embedBits f acc r := by
  apply BitVec.eq_of_toNat_eq
  rw [toNat_embedBits h1 h6, toNat_embedBits_div h1 h6, ← toNat_embedBits h1 h6]

/-- A slice above the spare bits is a slice of the plaintext's bits. -/
theorem extractLsb'_embedBits {r j : Nat} (h1 : 1 ≤ r) (h6 : r ≤ 6) (h : spareBits r ≤ j) (l : Nat) (f : Field)
    (acc : Word) : (embedBits f acc r).extractLsb' j l = f.extractLsb' j l := by
  apply BitVec.eq_of_toNat_eq
  obtain ⟨d, rfl⟩ := Nat.exists_eq_add_of_le h
  simp only [BitVec.extractLsb'_toNat, Nat.shiftRight_eq_div_pow, Nat.pow_add, ← Nat.div_div_eq_div_mul,
    toNat_embedBits_div h1 h6]

/-- A list is the bytes at its indices. -/
theorem exists_eq_map_range (e : List Byte) : ∃ byte : Nat → Byte, e = (List.range e.length).map byte := by
  refine ⟨(e.getD · 0), List.ext_getElem (by simp) fun i h _ => ?_⟩
  simp [h]

/-- The bytes of a partial group read no embedded bit, whatever the last unit was (R63, R82 c). -/
theorem decR_append_unit_embedBits {r : Nat} {e : List Byte} (h1 : 1 ≤ r) (h6 : r ≤ 6)
    (he : e.length = 2 * (unitCount r - 1)) (hi lo : Byte) (acc : Word) :
    decR r (e ++ unit (embedBits (unfield hi lo) acc r)) = decR r (e ++ [hi, lo]) := by
  have keep {j : Nat} (h : spareBits r ≤ j) (l : Nat) :
      (embedBits (unfield hi lo) acc r).extractLsb' j l = (unfield hi lo).extractLsb' j l :=
    extractLsb'_embedBits h1 h6 h l _ acc
  obtain ⟨byte, hbyte⟩ := exists_eq_map_range e
  rw [hbyte, he]
  interval_cases r <;>
    simp [decR, decGroup, dec8, bytesOf, unit, unitCount, spareBits, List.range_succ, keep]

/-! ### The unit EMBEDSUM replaces (R91) -/

/-- The field of the unit at index `i` of a buffer (R60). -/
def unitField (m : Memory) (b : Binding) (i : Nat) : Field := unfield (byteAt m b i) (byteAt m b (i + 1))

/-- The accumulator's bits embedded in the unit at index `i` of a buffer, as for remainder `r`. -/
def embedAt (i r : Nat) (acc : Word) (b : Binding) (m : Memory) : Memory :=
  memWrite m b i (unit (embedBits (unitField m b i) acc r))

theorem memRead_two (m : Memory) (b : Binding) (i : Nat) : memRead m b i 2 = [byteAt m b i, byteAt m b (i + 1)] := rfl

/-- A unit read back has the field it was made of. -/
theorem unitField_of_memRead {m : Memory} {b : Binding} {i : Nat} {f : Field} (h : memRead m b i 2 = unit f) :
    unitField m b i = f := by
  rw [memRead_two, unit, List.cons.injEq, List.cons.injEq] at h
  obtain ⟨hhi, hlo, -⟩ := h
  rw [unitField, hhi, hlo, unfield_codeUnit]

theorem unitField_memWrite_unit (m : Memory) (b : Binding) (i : Nat) (f : Field) :
    unitField (memWrite m b i (unit f)) b i = f :=
  unitField_of_memRead (memRead_memWrite m b i (unit f))

/-- Bytes in a range a `MemWrite` does not reach are as they were. -/
theorem agreeOn_memWrite_of_disjoint {m : Memory} {b : Binding} {i a len : Nat} {bytes : List Byte}
    (h : a + len ≤ b.base + i ∨ b.base + i + bytes.length ≤ a) : AgreeOn a len (memWrite m b i bytes) m :=
  fun x ha hx => read_memWrite_outside m b i x bytes (by omega)

theorem AgreeOn.unitField_eq {b : Binding} {j len i : Nat} {m m' : Memory} (h : AgreeOn (b.base + j) len m m')
    (hj : j ≤ i) (hi : i + 1 < j + len) : unitField m b i = unitField m' b i := by
  rw [unitField, unitField, h.byteAt_eq hj (by omega), h.byteAt_eq (by omega) hi]

theorem AgreeOn.memRead_part_eq {b : Binding} {i n : Nat} {m m' : Memory} (h : AgreeOn (b.base + i) n m m') :
    memRead m b i n = memRead m' b i n :=
  Memory.readBytes_congr m m' n _ _ fun k hk => h _ (by omega) (by omega)

/-- The tests of DECODE.C look at no byte but the last two. -/
theorem AgreeOn.accepts {b : Binding} {j len n off : Nat} {m m' : Memory} (h : AgreeOn (b.base + j) len m m')
    (hj : 2 ≤ n → j ≤ n - 2) (hn : n = j + len) (hacc : Accepts m' b n off) : Accepts m b n off := by
  rwa [← remainderOf_eq_some_iff, h.remainderOf_eq hj hn, remainderOf_eq_some_iff]

/-- The marker stands behind the last unit, so a unit stored there changes no test (R39). -/
theorem accepts_memWrite_unit {m : Memory} {b : Binding} {n off : Nat} (hacc : Accepts m b n off) (h4 : 4 ≤ n)
    (f : Field) : Accepts (memWrite m b (n - 4) (unit f)) b n off :=
  (agreeOn_memWrite_of_disjoint (a := b.base + (n - 2)) (len := 2) (.inr (by rw [length_unit]; omega))).accepts
    (fun _ => le_rfl) (by omega) hacc

/-- Embedding changes no decoded byte (R82 c). -/
theorem decodeData_memRead_embedAt {m : Memory} {b : Binding} {n off : Nat} (hacc : Accepts m b n off)
    (h0 : off ≠ 0) (acc : Word) :
    decodeData off (memRead (embedAt (n - 4) off acc b m) b 0 n) = decodeData off (memRead m b 0 n) := by
  obtain ⟨h6, hcost, hfit⟩ := bounds_of_accepts hacc
  have h1 : 1 ≤ off := Nat.pos_of_ne_zero h0
  have hu := unitCount_bounds h1 h6
  have hunits := cost_eq_units h0 h6
  obtain ⟨q, hq⟩ : ∃ q, (n - cost off) / 8 = q := ⟨_, rfl⟩
  have hlast : n - 4 = 8 * q + 2 * (unitCount off - 1) := by omega
  have hsplit (m : Memory) : memRead m b (8 * q) (2 * unitCount off) =
      memRead m b (8 * q) (2 * (unitCount off - 1)) ++ memRead m b (n - 4) 2 := by
    rw [hlast, ← memRead_add, ← Nat.mul_add_one, Nat.sub_add_cancel hu.1]
  have hfront {i k : Nat} (h : i + k ≤ n - 4) : memRead (embedAt (n - 4) off acc b m) b i k = memRead m b i k :=
    (agreeOn_memWrite_of_disjoint (.inl (by omega))).memRead_part_eq
  have hunit : memRead (embedAt (n - 4) off acc b m) b (n - 4) 2 = unit (embedBits (unitField m b (n - 4)) acc off) :=
    memRead_memWrite ..
  have hacc' : Accepts (embedAt (n - 4) off acc b m) b n off := accepts_memWrite_unit hacc (by omega) _
  rw [decodeData_memRead_partial hacc' h0, decodeData_memRead_partial hacc h0, hq,
    hsplit, hsplit, hfront (by omega), hfront (by omega), hunit, memRead_two, unitField,
    decR_append_unit_embedBits h1 h6 (length_memRead ..)]

/-! ### EMBEDSUM (R91) -/

/-- What EMBEDSUM makes of memory: nothing for whole strides. -/
def embedMemory (n : Nat) (acc : Word) (dst : Binding) (m : Memory) : Memory :=
  if n % 7 = 0 then m else embedAt (lastUnitIndex n) (n % 7) acc dst m

theorem embedMemory_of_whole {n : Nat} (h : n % 7 = 0) (acc : Word) (dst : Binding) (m : Memory) :
    embedMemory n acc dst m = m := if_pos h

theorem embedMemory_of_partial {n : Nat} (h : n % 7 ≠ 0) (acc : Word) (dst : Binding) (m : Memory) :
    embedMemory n acc dst m = embedAt (lastUnitIndex n) (n % 7) acc dst m := if_neg h

/-- EMBEDSUM where its room is bound and its length fits. -/
theorem exec_embedSum_of_fits {n : Nat} {dst : Binding} (hn : n < firstTooLong) (hdst : encodedLength n ≤ dst.cap)
    (s : State) : exec (.embedSum n dst) s =
      .next { s with mem := embedMemory n s.acc dst s.mem, response := some ⟨.ok, 0⟩ } := by
  have hfits : ¬ lengthBound ≤ encodedLength n := Nat.not_le.mpr ((encodedLength_lt_iff n).mpr hn)
  change execEmbedSum n dst s = _
  rw [execEmbedSum, encodedLen_eq, if_neg (Nat.not_lt.mpr hdst), if_neg hfits, embedMemory, stride]
  split <;> rfl

theorem exec_embedSum_of_tooLong {n : Nat} {dst : Binding} (hn : firstTooLong ≤ n) (hdst : encodedLength n ≤ dst.cap)
    (s : State) : exec (.embedSum n dst) s = .next { s with response := some ⟨.invalidInputLength, 0⟩ } := by
  have hlong : ¬ encodedLength n < lengthBound := (encodedLength_lt_iff n).not.mpr (Nat.not_lt.mpr hn)
  change execEmbedSum n dst s = _
  rw [execEmbedSum, encodedLen_eq, if_neg (Nat.not_lt.mpr hdst), if_pos (Nat.not_lt.mp hlong), raise_eq]

theorem exec_embedSum_of_noRoom {n : Nat} {dst : Binding} (h : dst.cap < encodedLength n) (s : State) :
    exec (.embedSum n dst) s = .refused .destinationBeyondCapacity :=
  if_pos (encodedLen_eq n ▸ h)

/-- Settles O41: the one unit `embedAt` stores, its field as a number. -/
theorem embedSumResult : Obligations.EmbedSumResult := by
  refine fun n dst s => ⟨fun hn hdst => exec_embedSum_of_tooLong hn hdst s,
    fun _ h => ⟨_, exec_embedSum_of_noRoom h s⟩, fun hn hdst hr => ?_, fun hn hdst hr => ?_⟩
  · rw [exec_embedSum_of_fits hn hdst, embedMemory_of_whole hr]
  · obtain ⟨h1, h6⟩ := remainder_bounds hr
    refine ⟨_, exec_embedSum_of_fits hn hdst s, rfl, ?_⟩
    rw [← unitCount_eq_table, ← spareBits_eq_table, ← checksumShift_eq_table, embedMemory_of_partial hr]
    exact ⟨fun x hx => read_memWrite_outside _ _ _ _ _ hx, _, toNat_embedBits h1 h6 _ s.acc, memRead_memWrite ..⟩

/-- A second store of the same bytes is no change. -/
theorem read_memWrite_memWrite (m : Memory) (b : Binding) (i : Nat) (bytes : List Byte) (x : Nat) :
    (memWrite (memWrite m b i bytes) b i bytes).read x = (memWrite m b i bytes).read x := by
  simp only [memWrite, Memory.read_writeBytes]
  split <;> rfl

theorem read_embedMemory_embedMemory (n : Nat) (acc : Word) (dst : Binding) (m : Memory) (x : Nat) :
    (embedMemory n acc dst (embedMemory n acc dst m)).read x = (embedMemory n acc dst m).read x := by
  by_cases hr : n % 7 = 0
  · rw [embedMemory_of_whole hr]
  · obtain ⟨h1, h6⟩ := remainder_bounds hr
    simp only [embedMemory_of_partial hr, embedAt, unitField_memWrite_unit, embedBits_embedBits h1 h6,
      read_memWrite_memWrite]

/-- Settles O42: the second command finds the field with the accumulator's bits in it and stores it again. -/
theorem embedTwiceIsOnce : Obligations.EmbedTwiceIsOnce :=
  fun n dst s hn hdst => ⟨_, _, exec_embedSum_of_fits hn hdst s, exec_embedSum_of_fits hn hdst _, rfl,
    read_embedMemory_embedMemory n s.acc dst s.mem⟩

/-! ### CHECKSUM (R92) -/

theorem four_le_of_accepts {m : Memory} {src : Binding} {n off : Nat} (hacc : Accepts m src n off) (h0 : off ≠ 0) :
    4 ≤ n := four_le_of_remainderOf ((remainderOf_eq_some_iff ..).mpr hacc) h0

theorem unitField_sub_four {n : Nat} (h4 : 4 ≤ n) (m : Memory) (b : Binding) :
    unitField m b (n - 4) = unfield (byteAt m b (n - 4)) (byteAt m b (n - 3)) := by
  rw [unitField, show n - 4 + 1 = n - 3 by omega]

theorem exec_checkSum_of_rejected {n : Nat} {src : Binding} {s : State} (hsrc : n ≤ src.cap)
    (hrej : ∀ off, ¬ Accepts s.mem src n off) :
    exec (.checkSum n src) s = .next { s with response := some ⟨.invalidInputLength, 0⟩ } := by
  change execCheckSum n src s = _
  rw [execCheckSum, if_neg (Nat.not_lt.mpr hsrc), (remainderOf_eq_none_iff ..).mpr hrej]
  rfl

theorem exec_checkSum_of_whole {n : Nat} {src : Binding} {s : State} (hsrc : n ≤ src.cap)
    (hacc : Accepts s.mem src n 0) :
    exec (.checkSum n src) s = .next { s with response := some ⟨.ok, 0⟩ } := by
  change execCheckSum n src s = _
  rw [execCheckSum, if_neg (Nat.not_lt.mpr hsrc), (remainderOf_eq_some_iff ..).mpr hacc]
  rfl

/-- On accepted input with a partial group CHECKSUM compares the embedded bits. -/
theorem exec_checkSum_of_partial {n off : Nat} {src : Binding} {s : State} (hsrc : n ≤ src.cap)
    (hacc : Accepts s.mem src n off) (h0 : off ≠ 0) :
    exec (.checkSum n src) s = .next { s with
      response := some
        ⟨if lowBits (unitField s.mem src (n - 4)) (spareBits off) = checksumBits s.acc off then .ok
          else .invalidDecodingChecksum, 0⟩ } := by
  rw [unitField_sub_four (four_le_of_accepts hacc h0)]
  change execCheckSum n src s = _
  rw [execCheckSum, if_neg (Nat.not_lt.mpr hsrc), (remainderOf_eq_some_iff ..).mpr hacc]
  dsimp only
  rw [if_neg h0, ite_not]
  split <;> rfl

/-- Settles O43: one answer for each outcome of the tests, and the comparison as one of numbers. -/
theorem checkSumResult : Obligations.CheckSumResult := by
  refine fun n src s => ⟨exec_checkSum_of_rejected, exec_checkSum_of_whole, fun off hsrc hacc h0 => ?_⟩
  obtain ⟨h6, -, -⟩ := bounds_of_accepts hacc
  rw [← unitField_sub_four (four_le_of_accepts hacc h0), ← spareBits_eq_table, ← checksumShift_eq_table,
    exec_checkSum_of_partial hsrc hacc h0]
  have hbits := lowBits_eq_checksumBits_iff (Nat.pos_of_ne_zero h0) h6 (unitField s.mem src (n - 4)) s.acc
  exact ⟨fun h => by rw [if_pos (hbits.mpr h)], fun h => by rw [if_neg (hbits.not.mpr h)]⟩

/-- A flipped bit among the low ones shows in them. -/
theorem lowBits_flip_ne {b k : Nat} (hb : b < k) (hk : k < 14) (f : Field) :
    lowBits (f ^^^ (1 <<< b)) k ≠ lowBits f k := by
  intro h
  have hflip : (1 <<< b % 16384).testBit b = true := by
    rw [Nat.one_shiftLeft, Nat.mod_eq_of_lt (Nat.pow_lt_pow_right (by decide) (hb.trans hk)), Nat.testBit_two_pow_self]
  have hbit := congrArg (fun g : Field => g.toNat.testBit b) h
  simp [toNat_lowBits hk, hb, hflip] at hbit

/-- Settles O44: the tests still pass, and the comparison finds the flipped bit. -/
theorem flippedChecksumBitIsCaught : Obligations.FlippedChecksumBitIsCaught := by
  intro n off b src s t hsrc hacc h0 hb hexec hok f s'
  obtain ⟨h6, -, -⟩ := bounds_of_accepts hacc
  have h4 : 4 ≤ n := four_le_of_accepts hacc h0
  rw [← spareBits_eq_table] at hb
  have hf : unitField s.mem src (n - 4) = f := unitField_sub_four h4 s.mem src
  have hpass : lowBits f (spareBits off) = checksumBits s.acc off := by
    rw [exec_checkSum_of_partial hsrc hacc h0, hf] at hexec
    by_contra hne
    rw [if_neg hne] at hexec
    cases hexec
    cases hok
  have hfail : lowBits (f ^^^ (1 <<< b)) (spareBits off) ≠ checksumBits s.acc off :=
    hpass ▸ lowBits_flip_ne hb (spareBits_add_checksumShift (Nat.pos_of_ne_zero h0) h6).2 f
  rw [exec_checkSum_of_partial (s := s') hsrc (accepts_memWrite_unit hacc h4 _) h0, unitField_memWrite_unit,
    if_neg hfail]

/-! ### The protocol of one chunk (R93) -/

/-- The buffer holds a chunk as the sender leaves it: the encoding of `n` plaintext bytes that DECODE.C accepts and
gives back, and in a partial group's last unit the top bits of the accumulator. -/
structure SealedChunk (acc : Word) (n : Nat) (data : List Byte) (m : Memory) (b : Binding) : Prop where
  accepts : Accepts m b (encodedLength n) (n % 7)
  decodes : decodeData (n % 7) (memRead m b 0 (encodedLength n)) = data
  checks : n % 7 ≠ 0 →
    lowBits (unitField m b (encodedLength n - 4)) (spareBits (n % 7)) = checksumBits acc (n % 7)

/-- The last data unit stands before the two bytes of the marker. -/
theorem lastUnitIndex_eq {n : Nat} (h : n % 7 ≠ 0) : lastUnitIndex n = encodedLength n - 4 := by
  obtain ⟨h1, h6⟩ := remainder_bounds h
  have hu := unitCount_bounds h1 h6
  rw [encodedLength_eq_cost, cost_eq_units h h6, lastUnitIndex, groupBytes, stride]
  omega

/-- EMBEDSUM seals the encoding of a chunk. -/
theorem sealedChunk_embedMemory {n : Nat} {data : List Byte} {m : Memory} {b : Binding} (hlen : data.length = n)
    (hread : memRead m b 0 (encodedLength n) = encodeData data) (acc : Word) :
    SealedChunk acc n data (embedMemory n acc b m) b := by
  subst hlen
  have hacc := accepts_of_memRead_eq_encodeData hread
  have hplain : decodeData (data.length % 7) (memRead m b 0 (encodedLength data.length)) = data := by
    rw [hread, decodeData_encodeData]
  by_cases hr : data.length % 7 = 0
  · rw [embedMemory_of_whole hr]
    exact ⟨hacc, hplain, fun h => absurd hr h⟩
  · obtain ⟨h1, h6⟩ := remainder_bounds hr
    rw [embedMemory_of_partial hr, lastUnitIndex_eq hr]
    refine ⟨accepts_memWrite_unit hacc (four_le_of_accepts hacc hr) _,
      (decodeData_memRead_embedAt hacc hr acc).trans hplain, fun _ => ?_⟩
    rw [embedAt, unitField_memWrite_unit, lowBits_embedBits h1 h6]

/-- A chunk is sealed by its own bytes alone. -/
theorem SealedChunk.congr {acc : Word} {n : Nat} {data : List Byte} {m m' : Memory} {b : Binding}
    (h : SealedChunk acc n data m b) (hsame : AgreeOn b.base (encodedLength n) m' m) :
    SealedChunk acc n data m' b where
  accepts := hsame.accepts (j := 0) (fun _ => Nat.zero_le _) (by omega) h.accepts
  decodes := by rw [hsame.memRead_eq, h.decodes]
  checks hr := by
    have h4 := four_le_of_accepts h.accepts hr
    rw [AgreeOn.unitField_eq (j := 0) hsame (by omega) (by omega), h.checks hr]

/-- DECODE.C of a sealed chunk gives its plaintext and leaves the chunk sealed. -/
theorem exec_decodeC_of_sealed {acc : Word} {n : Nat} {data : List Byte} {mid dst : Binding} {s : State}
    (h : SealedChunk acc n data s.mem mid) (hmid : encodedLength n ≤ mid.cap) (hdst : n ≤ dst.cap)
    (hapart : Apart mid dst) :
    ∃ t, exec (.decodeC (encodedLength n) mid dst) s = .next t ∧ t.acc = s.acc ∧ memRead t.mem dst 0 n = data ∧
      SealedChunk acc n data t.mem mid := by
  have hlen : decodedLength (encodedLength n) (n % 7) = n := decodedLength_encodedLength n
  refine ⟨_, exec_decode_of_duties (.inl ⟨rfl, rfl⟩) hmid h.accepts (hlen.trans_le hdst) hapart, rfl, ?_,
    h.congr fun x hx hx' => sameOutside_afterDecode h.accepts dst x ?_⟩
  · have hstored := memRead_afterDecode h.accepts dst
    rwa [hlen, h.decodes] at hstored
  · rw [Apart] at hapart
    omega

/-- CHECKSUM of a sealed chunk passes with the accumulator it was sealed with. -/
theorem exec_checkSum_of_sealed {n : Nat} {data : List Byte} {mid : Binding} {s : State}
    (h : SealedChunk s.acc n data s.mem mid) (hmid : encodedLength n ≤ mid.cap) :
    exec (.checkSum (encodedLength n) mid) s = .next { s with response := some ⟨.ok, 0⟩ } := by
  by_cases hr : n % 7 = 0
  · exact exec_checkSum_of_whole hmid (hr ▸ h.accepts)
  · rw [exec_checkSum_of_partial hmid h.accepts hr, if_pos (h.checks hr)]

theorem exec_encodeC_of_fits {n : Nat} {src dst : Binding} (hn : n < firstTooLong) (hsrc : n ≤ src.cap)
    (hdst : encodedLength n ≤ dst.cap) (hapart : Apart src dst) (s : State) :
    exec (.encodeC n src dst) s = .next (afterEncode n src dst s) :=
  encodeCommand_of_fits (slack := 0) hn hsrc hdst hapart s

/-- The sender's half of the protocol leaves a sealed chunk. -/
theorem execAll_sender {seed : Word} {n : Nat} {src mid : Binding} {s : State} (hn : n < firstTooLong)
    (hsrc : n ≤ src.cap) (hmid : encodedLength n ≤ mid.cap) (hapart : Apart src mid) :
    ∃ t, execAll [.wrSum seed, .calcSum n src, .encodeC n src mid, .embedSum n mid] s = .next t ∧
      SealedChunk ((memRead s.mem src 0 n).foldl sumStep seed) n (memRead s.mem src 0 n) t.mem mid := by
  rw [execAll_cons_of_next (exec_wrSum seed s), execAll_cons_of_next (exec_calcSum_of_bound hsrc),
    execAll_cons_of_next (exec_encodeC_of_fits hn hsrc hmid hapart _),
    execAll_cons_of_next (exec_embedSum_of_fits hn hmid _)]
  exact ⟨_, rfl, sealedChunk_embedMemory (length_memRead ..) (memRead_afterEncode n src mid _) _⟩

/-- The receiver's half passes the check on a chunk sealed with the fold of its plaintext from the same seed. -/
theorem execAll_receiver {seed : Word} {n : Nat} {data : List Byte} {mid dst : Binding} {s : State}
    (h : SealedChunk (data.foldl sumStep seed) n data s.mem mid) (hmid : encodedLength n ≤ mid.cap)
    (hdst : n ≤ dst.cap) (hapart : Apart mid dst) :
    ∃ t, execAll [.wrSum seed, .decodeC (encodedLength n) mid dst, .calcSum n dst, .checkSum (encodedLength n) mid] s =
        .next t ∧
      t.response = some ⟨.ok, 0⟩ ∧ t.acc = data.foldl sumStep seed ∧ memRead t.mem dst 0 n = data := by
  rw [execAll_cons_of_next (exec_wrSum seed s)]
  obtain ⟨t, hdecode, hacc, hplain, hsealed⟩ :=
    exec_decodeC_of_sealed (s := { s with acc := seed, response := some ⟨.ok, seed⟩ }) h hmid hdst hapart
  have hfold : (memRead t.mem dst 0 n).foldl sumStep t.acc = data.foldl sumStep seed := by rw [hplain, hacc]
  rw [execAll_cons_of_next hdecode, execAll_cons_of_next (exec_calcSum_of_bound hdst), hfold,
    execAll_cons_of_next (exec_checkSum_of_sealed hsealed hmid)]
  exact ⟨_, rfl, rfl, rfl, hplain⟩

/-- Commands after others start from the state these left. -/
theorem execAll_append_of_next {is : List Instr} {s t : State} (h : execAll is s = .next t) (rest : List Instr) :
    execAll (is ++ rest) s = execAll rest t := by
  induction is generalizing s with
  | nil =>
    cases h
    rfl
  | cons i is ih =>
    rw [execAll] at h
    split at h
    next u hu =>
      rw [List.cons_append, execAll_cons_of_next hu, ih h]
    next => cases h
    next => cases h

/-- Settles O45: the receiver finds the chunk the sender sealed. -/
theorem checksumProtocolSucceeds : Obligations.ChecksumProtocolSucceeds := by
  intro seed n src mid dst s hn hsrc hmid hdst hapart hapart'
  obtain ⟨t, hsend, hsealed⟩ := execAll_sender (seed := seed) (s := s) hn hsrc hmid hapart
  obtain ⟨u, hreceive, hu⟩ := execAll_receiver hsealed hmid hdst hapart'
  exact ⟨u, (execAll_append_of_next hsend _).trans hreceive, hu⟩

end Sys2Proof.Machine
end

section
/-! PROOFS. What a command's answer says (spec/60_exceptions.md): a command that answers was issued under its duties
(R104), an error changes nothing else (R107), and no command answers IllegalCommand (R103). -/

namespace Sys2Proof.Machine

open Sys2Proof.Safety

/-! ### A command that answers was issued under its duties (R104) -/

/-- One encoded buffer has one remainder. -/
theorem remainder_unique {m : Memory} {src : Binding} {n off off' : Nat} (h : Accepts m src n off)
    (h' : Accepts m src n off') : off = off' := by
  rw [← remainderOf_eq_some_iff] at h h'
  exact Option.some.inj (h.symm.trans h')

theorem encodeCommand_next_duties {slack n : Nat} {src dst : Binding} {s t : State}
    (h : encodeCommand slack n src dst s = .next t) :
    n + slack ≤ src.cap ∧ encodedLength n ≤ dst.cap ∧ Apart src dst := by
  obtain ⟨hsrc, hdst, hover, -⟩ := encodeCommand_next h
  exact ⟨hsrc, encodedLen_eq n ▸ hdst, (overlaps_eq_false_iff ..).mp hover⟩

theorem hostDuties_of_exec_next {i : Instr} {s t : State} (h : exec i s = .next t) : HostDuties i s := by
  cases i with
  | encLen | decLen | wrSum | rdSum => trivial
  | encodeU n src dst | encodeC n src dst => exact encodeCommand_next_duties h
  | decodeU n src dst =>
    obtain ⟨hsrc, hover, off, hoff, hdst, -⟩ := execDecodeU_next h
    exact ⟨hsrc, ⟨off, (remainderOf_eq_some_iff ..).mp hoff, decodedLen_eq n off ▸ hdst⟩,
      (overlaps_eq_false_iff ..).mp hover⟩
  | decodeC n src dst =>
    obtain ⟨hsrc, hover, hanswer⟩ := execDecodeC_next h
    refine ⟨hsrc, fun off hacc => ?_, (overlaps_eq_false_iff ..).mp hover⟩
    obtain ⟨hrej, -⟩ | ⟨off', hoff, hdst, -⟩ := hanswer
    · exact absurd hacc ((remainderOf_eq_none_iff ..).mp hrej off)
    · obtain rfl := remainder_unique hacc ((remainderOf_eq_some_iff ..).mp hoff)
      exact decodedLen_eq n off ▸ hdst
  | calcSum n src => exact (execCalcSum_next h).1
  | embedSum n dst => exact (encodedLen_eq n).ge.trans (execEmbedSum_next h).1
  | checkSum n src => exact (execCheckSum_next h).1

/-- Settles O54: a next state would show every duty kept. -/
theorem brokenDutiesAreRefused : Obligations.BrokenDutiesAreRefused :=
  fun _ _ hbroken => exists_refused_of_ne_next fun _ h => hbroken (hostDuties_of_exec_next h)

/-! ### What an answer is (R103, R107) -/

/-- `t` is `s` with one of the two errors a command reports (R101, R102), and nothing else changed. -/
def ReportsError (s t : State) : Prop :=
  ∃ e, (e = .invalidInputLength ∨ e = .invalidDecodingChecksum) ∧ t = { s with response := some ⟨e, 0⟩ }

theorem ReportsError.invalidInputLength (s : State) :
    ReportsError s { s with response := some ⟨.invalidInputLength, 0⟩ } := ⟨_, .inl rfl, rfl⟩

theorem ReportsError.invalidDecodingChecksum (s : State) :
    ReportsError s { s with response := some ⟨.invalidDecodingChecksum, 0⟩ } := ⟨_, .inr rfl, rfl⟩

/-- The response is OK with some value. -/
def AnswersOk (t : State) : Prop := ∃ v, t.response = some ⟨.ok, v⟩

theorem encodeCommand_answer {slack n : Nat} {src dst : Binding} {s t : State}
    (h : encodeCommand slack n src dst s = .next t) : ReportsError s t ∨ AnswersOk t := by
  obtain ⟨-, -, -, ⟨-, rfl⟩ | ⟨-, rfl⟩⟩ := encodeCommand_next h
  · exact .inl (.invalidInputLength s)
  · exact .inr ⟨_, rfl⟩

theorem execCheckSum_answer {n : Nat} {src : Binding} {s t : State} (h : execCheckSum n src s = .next t) :
    ReportsError s t ∨ AnswersOk t := by
  obtain ⟨-, ⟨-, rfl⟩ | ⟨-, rfl⟩ | ⟨off, -, -, rfl⟩⟩ := execCheckSum_next h
  · exact .inl (.invalidInputLength s)
  · exact .inr ⟨_, rfl⟩
  · split
    · exact .inl (.invalidDecodingChecksum s)
    · exact .inr ⟨_, rfl⟩

/-- A command that answers either reports one of the two errors, which is then all it does, or answers OK. -/
theorem exec_answer {i : Instr} {s t : State} (h : exec i s = .next t) : ReportsError s t ∨ AnswersOk t := by
  cases i with
  | encLen n =>
    obtain ⟨-, rfl⟩ | ⟨-, rfl⟩ := execEncLen_next h
    · exact .inl (.invalidInputLength s)
    · exact .inr ⟨_, rfl⟩
  | decLen n off =>
    obtain ⟨-, rfl⟩ | ⟨-, -, rfl⟩ := execDecLen_next h
    · exact .inl (.invalidInputLength s)
    · exact .inr ⟨_, rfl⟩
  | encodeU n src dst | encodeC n src dst => exact encodeCommand_answer h
  | decodeU n src dst =>
    obtain ⟨-, -, off, -, -, rfl⟩ := execDecodeU_next h
    exact .inr ⟨_, rfl⟩
  | decodeC n src dst =>
    obtain ⟨-, -, ⟨-, rfl⟩ | ⟨off, -, -, rfl⟩⟩ := execDecodeC_next h
    · exact .inl (.invalidInputLength s)
    · exact .inr ⟨_, rfl⟩
  | calcSum n src =>
    obtain ⟨-, rfl⟩ := execCalcSum_next h
    exact .inr ⟨_, rfl⟩
  | embedSum n dst =>
    obtain ⟨-, ⟨-, rfl⟩ | ⟨-, -, rfl⟩ | ⟨-, -, rfl⟩⟩ := execEmbedSum_next h
    · exact .inl (.invalidInputLength s)
    · exact .inr ⟨_, rfl⟩
    · exact .inr ⟨_, rfl⟩
  | checkSum n src => exact execCheckSum_answer h
  | wrSum val =>
    obtain rfl := respond_next h
    exact .inr ⟨_, rfl⟩
  | rdSum =>
    obtain rfl := respond_next h
    exact .inr ⟨_, rfl⟩

/-! ### No command writes its source (R34, R107) -/

theorem encodeFootprint_within {n : Nat} {dst : Binding} (h : encodedLength n ≤ dst.cap) :
    (encodeFootprint n dst).1 = dst.base ∧ (encodeFootprint n dst).2 ≤ dst.cap := by
  rw [← encodedLen_eq] at h
  rcases Nat.lt_or_ge (encodedLen n) lengthBound with hfits | hlong
  · rw [encodeFootprint_of_fits hfits]
    exact ⟨rfl, h⟩
  · rw [encodeFootprint_of_tooLong hlong]
    exact ⟨rfl, Nat.zero_le _⟩

theorem decodeFootprint_within {n : Nat} {src dst : Binding} {s : State}
    (h : ∀ off, Accepts s.mem src n off → decodedLength n off ≤ dst.cap) :
    (decodeFootprint n src dst s).1 = dst.base ∧ (decodeFootprint n src dst s).2 ≤ dst.cap := by
  cases hoff : remainderOf s.mem src n with
  | none =>
    rw [decodeFootprint_of_rejected hoff]
    exact ⟨rfl, Nat.zero_le _⟩
  | some off =>
    rw [decodeFootprint_of_accepted hoff, decodedLen_eq]
    exact ⟨rfl, h off ((remainderOf_eq_some_iff ..).mp hoff)⟩

/-- Under its duties a command with both buffers writes inside its destination, which is apart from its source. -/
theorem writeFootprint_of_duties {i : Instr} {s : State} {src dst : Binding} (hduties : HostDuties i s)
    (hsrc : i.source = some src) (hdst : i.destination = some dst) :
    Apart src dst ∧ (writeFootprint i s).1 = dst.base ∧ (writeFootprint i s).2 ≤ dst.cap := by
  cases i with
  | encLen | decLen | wrSum | rdSum | embedSum => cases hsrc
  | calcSum | checkSum => cases hdst
  | encodeU n src' dst' | encodeC n src' dst' =>
    cases hsrc
    cases hdst
    obtain ⟨-, hroom, hapart⟩ := hduties
    exact ⟨hapart, encodeFootprint_within hroom⟩
  | decodeU n src' dst' =>
    cases hsrc
    cases hdst
    obtain ⟨-, ⟨off, hacc, hroom⟩, hapart⟩ := hduties
    exact ⟨hapart, decodeFootprint_within fun off' hacc' => remainder_unique hacc hacc' ▸ hroom⟩
  | decodeC n src' dst' =>
    cases hsrc
    cases hdst
    obtain ⟨-, hroom, hapart⟩ := hduties
    exact ⟨hapart, decodeFootprint_within hroom⟩

/-- A byte of one range is outside what lies at the start of a range apart from it. -/
theorem outside_of_apart {src dst : Binding} {len x : Nat} (hapart : Apart src dst) (hlen : len ≤ dst.cap)
    (hlo : src.base ≤ x) (hhi : x < src.base + src.cap) : x < dst.base ∨ dst.base + len ≤ x := by
  unfold Apart at hapart
  omega

/-- A source byte is outside the write footprint. -/
theorem outside_writeFootprint_of_source {i : Instr} {s : State} {src : Binding} {x : Nat} (hduties : HostDuties i s)
    (hsrc : i.source = some src) (hlo : src.base ≤ x) (hhi : x < src.base + src.cap) :
    x < (writeFootprint i s).1 ∨ (writeFootprint i s).1 + (writeFootprint i s).2 ≤ x := by
  cases hdst : i.destination with
  | none =>
    have hempty := writeFootprint_of_no_destination hdst s
    omega
  | some dst =>
    obtain ⟨hapart, hbase, hlen⟩ := writeFootprint_of_duties hduties hsrc hdst
    rw [hbase]
    exact outside_of_apart hapart hlen hlo hhi

/-- Settles O49: an answer that is not OK is a reported error, and the bytes stored are outside the source. -/
theorem errorsHaveNoEffect : Obligations.ErrorsHaveNoEffect := by
  refine ⟨fun i s t r h hr hstatus => ?_, fun i s t src x h hsrc hlo hhi => ?_⟩
  · obtain ⟨e, -, rfl⟩ | ⟨v, hok⟩ := exec_answer h
    · cases hr
      exact ⟨rfl, rfl⟩
    · cases hr.symm.trans hok
      exact absurd rfl hstatus
  · exact (exec_storesExactly h).sameOutside x
      (outside_writeFootprint_of_source (hostDuties_of_exec_next h) hsrc hlo hhi)

/-! ### IllegalCommand (R103) -/

theorem decode_eq_error_of_illegal {c : Command}
    (h : c.cmd ∉ ([0x00, 0x01, 0x02, 0x12, 0x03, 0x13, 0x04, 0x05, 0x06, 0x07, 0x08] : List (BitVec 8))) :
    ∃ e, decode c = .error e := by
  cases hc : decode c with
  | ok i => exact absurd ((elevenLegalWords c).mp ⟨i, hc⟩) h
  | error e => exact ⟨e, rfl⟩

/-- Settles O5: a word that is no row's does not decode, and a decoded command answers OK or one of two other
errors. -/
theorem illegalCommandHasOneCause : Obligations.IllegalCommandHasOneCause := by
  refine ⟨fun s c rest hhost hillegal => ?_, fun i s t h => ?_⟩
  · obtain ⟨e, he⟩ := decode_eq_error_of_illegal hillegal
    rw [step_of_illegal hhost he, transactIllegal_quiet]
  · obtain ⟨e, rfl | rfl, rfl⟩ | ⟨v, hok⟩ := exec_answer h
    · exact ⟨_, rfl, by decide⟩
    · exact ⟨_, rfl, by decide⟩
    · exact ⟨_, hok, by simp⟩

end Sys2Proof.Machine
end

section
/-! PROOFS. Reset, the window between issue and response, and the answer a host owed its duties gets
(spec/70_reset_and_hazards.md R116 to R119, R128). -/

namespace Sys2Proof.Machine

open Sys2Proof.Safety

/-- Settles O8: the empty memory lists no byte, so it is canonical. -/
theorem resetLeavesBlockIdle : Obligations.ResetLeavesBlockIdle :=
  ⟨reset_host, reset_response, rfl⟩

/-! ### The first broken duty of a window names its refusal (R118, R119) -/

/-- The refusal an act earns where it breaks a duty. -/
def refusalOf : WindowAct → Refusal
  | .issue _ => .commandWhileBusy
  | .read _ => .bufferTouchedWhileBusy
  | .write _ _ => .bufferTouchedWhileBusy

theorem windowRefusal_cons_of_breaks {src dst : Option Binding} {act : WindowAct} (h : Breaks src dst act)
    (w : List WindowAct) : windowRefusal src dst (act :: w) = some (refusalOf act) := by
  cases act with
  | issue c => rfl
  | read a | write a b => exact if_pos ((touchesBuffer_eq_true_iff ..).mpr h)

theorem windowRefusal_cons_of_harmless {src dst : Option Binding} {act : WindowAct} (h : ¬ Breaks src dst act)
    (w : List WindowAct) : windowRefusal src dst (act :: w) = windowRefusal src dst w := by
  cases act with
  | issue c => exact absurd trivial h
  | read a | write a b => exact if_neg ((touchesBuffer_eq_true_iff ..).not.mpr h)

/-- A window with a broken duty is refused by the name of one of its acts. -/
theorem windowRefusal_of_breaks {src dst : Option Binding} {w : List WindowAct} (h : ∃ act ∈ w, Breaks src dst act) :
    ∃ act ∈ w, windowRefusal src dst w = some (refusalOf act) := by
  induction w with
  | nil => simp at h
  | cons first w ih =>
    by_cases hfirst : Breaks src dst first
    · exact ⟨first, List.mem_cons_self, windowRefusal_cons_of_breaks hfirst w⟩
    · rw [List.exists_mem_cons_iff] at h
      obtain ⟨act, hact, hname⟩ := ih (h.resolve_left hfirst)
      exact ⟨act, List.mem_cons_of_mem _ hact, (windowRefusal_cons_of_harmless hfirst w).trans hname⟩

theorem windowRefusal_of_harmless {src dst : Option Binding} {w : List WindowAct}
    (h : ∀ act ∈ w, ¬ Breaks src dst act) : windowRefusal src dst w = none := by
  induction w with
  | nil => rfl
  | cons first w ih =>
    obtain ⟨hfirst, hrest⟩ := List.forall_mem_cons.mp h
    exact (windowRefusal_cons_of_harmless hfirst w).trans (ih hrest)

/-! ### What a window does to a step -/

theorem transact_of_windowRefusal {i : Instr} {w : List WindowAct} {r : Refusal}
    (h : windowRefusal i.source i.destination w = some r) (resets : Bool) (s : State) :
    transact i w resets s = .refused r := by
  simp [transact, h]

theorem transactIllegal_of_windowRefusal {w : List WindowAct} {r : Refusal} (h : windowRefusal none none w = some r)
    (resets : Bool) (s : State) : transactIllegal w resets s = .refused r := by
  simp [transactIllegal, h]

/-- A command whose window breaks no duty, no reset following, is its meaning behind the window's writes. -/
theorem transact_of_harmless {i : Instr} {w : List WindowAct} (h : windowRefusal i.source i.destination w = none)
    (s : State) : transact i w false s = exec i { s with mem := windowWrites w s.mem } := by
  simp [transact, h]

/-- Some bindings decide whether a step's window is refused: the command's, or none for an illegal word. -/
theorem step_refused_by_window {s : State} {c : Command} {w : List WindowAct} {resets : Bool}
    {rest : List HostAction} (h : s.host = .issue c w resets :: rest) :
    ∃ src dst, ∀ r, windowRefusal src dst w = some r → step s = .refused r := by
  cases hc : decode c with
  | ok i => exact ⟨_, _, fun r hr => (step_of_issue h hc).trans (transact_of_windowRefusal hr ..)⟩
  | error e => exact ⟨_, _, fun r hr => (step_of_illegal h hc).trans (transactIllegal_of_windowRefusal hr ..)⟩

/-- Settles O11: a second command breaks a duty whatever the bindings are. -/
theorem commandWhileBusyRefused : Obligations.CommandWhileBusyRefused := by
  intro s c c' w resets rest hhost hmem
  obtain ⟨src, dst, hstep⟩ := step_refused_by_window hhost
  refine ⟨?_, fun hhead => hstep _ ?_⟩
  · obtain ⟨act, -, hname⟩ := windowRefusal_of_breaks (src := src) (dst := dst) ⟨_, hmem, trivial⟩
    exact ⟨_, hstep _ hname⟩
  · obtain ⟨tail, rfl⟩ := List.head?_eq_some_iff.mp hhead
    rfl

/-- A byte no act of the window writes stays as it was. -/
theorem read_windowWrites_of_unwritten {w : List WindowAct} {x : Nat} (h : ∀ b, .write x b ∉ w) (m : Memory) :
    (windowWrites w m).read x = m.read x := by
  induction w generalizing m with
  | nil => rfl
  | cons act w ih =>
    have htail := ih fun b hb => h b (List.mem_cons_of_mem _ hb)
    cases act with
    | issue c | read a => exact htail m
    | write a b =>
      have hne : x ≠ a := fun hxa => h b (hxa ▸ List.mem_cons_self)
      exact (htail (m.write a b)).trans ((Memory.read_write ..).trans (if_neg hne))

/-- Settles O12: the two acts that break a duty have their names; without one the command runs, and a write to a
bound byte would have been one. -/
theorem windowDecidesRefusal : Obligations.WindowDecidesRefusal := by
  intro s c w resets rest i hhost hdec
  refine ⟨fun hbreaks => ?_, fun hharmless hresets => ⟨?_, fun x => ⟨fun b hb hlo hhi => ?_, fun b hb hlo hhi => ?_⟩⟩⟩
  · obtain ⟨act, -, hname⟩ := windowRefusal_of_breaks hbreaks
    have hstep : step s = .refused (refusalOf act) :=
      (step_of_issue hhost hdec).trans (transact_of_windowRefusal hname ..)
    cases act with
    | issue c' => exact .inl hstep
    | read a | write a b => exact .inr hstep
  · subst hresets
    exact (step_of_issue hhost hdec).trans (transact_of_harmless (windowRefusal_of_harmless hharmless) _)
  · exact read_windowWrites_of_unwritten (fun v hv => hharmless _ hv ⟨b, .inl hb, hlo, hhi⟩) s.mem
  · exact read_windowWrites_of_unwritten (fun v hv => hharmless _ hv ⟨b, .inr hb, hlo, hhi⟩) s.mem

/-! ### A command issued under its duties answers (R128) -/

theorem execEncLen_answers (n : Nat) (s : State) : ∃ t, execEncLen n s = .next t := by
  unfold execEncLen
  split <;> exact ⟨_, rfl⟩

theorem execDecLen_answers (n off : Nat) (s : State) : ∃ t, execDecLen n off s = .next t := by
  unfold execDecLen
  split_ifs <;> exact ⟨_, rfl⟩

theorem encodeCommand_answers {slack n : Nat} {src dst : Binding} (hsrc : n + slack ≤ src.cap)
    (hdst : encodedLength n ≤ dst.cap) (hapart : Apart src dst) (s : State) :
    ∃ t, encodeCommand slack n src dst s = .next t := by
  rw [encodeCommand_of_duties hsrc hdst hapart]
  split <;> exact ⟨_, rfl⟩

theorem exec_checkSum_answers {n : Nat} {src : Binding} (hsrc : n ≤ src.cap) (s : State) :
    ∃ t, exec (.checkSum n src) s = .next t := by
  by_cases hrej : ∀ off, ¬ Accepts s.mem src n off
  · exact ⟨_, exec_checkSum_of_rejected hsrc hrej⟩
  · obtain ⟨off, hacc⟩ := not_forall_not.mp hrej
    by_cases h0 : off = 0
    · exact ⟨_, exec_checkSum_of_whole hsrc (h0 ▸ hacc)⟩
    · exact ⟨_, exec_checkSum_of_partial hsrc hacc h0⟩

/-- The converse of `hostDuties_of_exec_next`. -/
theorem exec_next_of_hostDuties {i : Instr} {s : State} (h : HostDuties i s) : ∃ t, exec i s = .next t := by
  cases i with
  | encLen n => exact execEncLen_answers n s
  | decLen n off => exact execDecLen_answers n off s
  | wrSum val => exact ⟨_, exec_wrSum val s⟩
  | rdSum => exact ⟨_, exec_rdSum s⟩
  | calcSum n src => exact ⟨_, exec_calcSum_of_bound h⟩
  | checkSum n src => exact exec_checkSum_answers h s
  | encodeU n src dst | encodeC n src dst =>
    obtain ⟨hsrc, hdst, hapart⟩ := h
    exact encodeCommand_answers hsrc hdst hapart s
  | decodeU n src dst =>
    obtain ⟨hsrc, ⟨off, hacc, hdst⟩, hapart⟩ := h
    exact ⟨_, exec_decode_of_duties (.inr ⟨rfl, rfl⟩) hsrc hacc hdst hapart⟩
  | decodeC n src dst =>
    obtain ⟨hsrc, hdst, hapart⟩ := h
    by_cases hrej : ∀ off, ¬ Accepts s.mem src n off
    · exact ⟨_, exec_decodeC_of_rejected hsrc hapart hrej⟩
    · obtain ⟨off, hacc⟩ := not_forall_not.mp hrej
      exact ⟨_, exec_decode_of_duties (.inl ⟨rfl, rfl⟩) hsrc hacc (hdst off hacc) hapart⟩
  | embedSum n dst =>
    rcases Nat.lt_or_ge n firstTooLong with hn | hn
    · exact ⟨_, exec_embedSum_of_fits hn h s⟩
    · exact ⟨_, exec_embedSum_of_tooLong hn h s⟩

theorem exec_response {i : Instr} {s t : State} (h : exec i s = .next t) : ∃ r, t.response = some r := by
  obtain ⟨e, -, rfl⟩ | ⟨v, hok⟩ := exec_answer h
  · exact ⟨_, rfl⟩
  · exact ⟨_, hok⟩

theorem exec_host {i : Instr} {s t : State} (h : exec i s = .next t) : t.host = s.host := by
  obtain ⟨bytes, -, ht⟩ := exec_storesExactly h
  rw [ht]

/-- A command's duties do not depend on what the host does later. -/
theorem hostDuties_withHost_iff (i : Instr) (s : State) (rest : List HostAction) :
    HostDuties i { s with host := rest } ↔ HostDuties i s := by
  cases i <;> rfl

/-- The bytes a command may write do not depend on what the host does later. -/
theorem writeFootprint_withHost (i : Instr) (s : State) (rest : List HostAction) :
    writeFootprint i { s with host := rest } = writeFootprint i s := by
  cases i <;> rfl

/-- Settles O53: an illegal word is answered, and so is a command under its duties. -/
theorem commandUnderDutiesResponds : Obligations.CommandUnderDutiesResponds := by
  intro s c rest hhost hduties
  cases hc : decode c with
  | ok i =>
    obtain ⟨t, ht⟩ := exec_next_of_hostDuties ((hostDuties_withHost_iff i s rest).mpr (hduties i hc))
    obtain ⟨r, hr⟩ := exec_response ht
    exact ⟨t, r, (stepRunsIssuedCommand s c rest i hhost hc).trans ht, hr, exec_host ht⟩
  | error e =>
    rw [step_of_illegal hhost hc, transactIllegal_quiet]
    exact ⟨_, _, rfl, rfl, rfl⟩

/-! ### Reset during a command (R116) -/

/-- A reset with nothing else in the window abandons the command. -/
theorem transact_reset (i : Instr) (s : State) : transact i [] true s = abandon i s := rfl

theorem abandon_of_next {i : Instr} {s u : State} (h : exec i s = .next u) :
    abandon i s =
      .next (resetBlock { s with mem := scrub s.draws (writeFootprint i s).1 (writeFootprint i s).2 s.mem }) := by
  rw [abandon, h]

/-- Settles O10: a command under its duties would have answered, so reset abandons it, and that stores in its write
footprint alone. -/
theorem resetKeepsBuffers : Obligations.ResetKeepsBuffers := by
  refine ⟨fun s rest hhost => ⟨_, step_of_reset hhost, rfl, rfl, rfl⟩, fun s c rest i hhost hdec hduties => ?_⟩
  obtain ⟨u, hu⟩ := exec_next_of_hostDuties ((hostDuties_withHost_iff i s rest).mpr hduties)
  rw [step_of_issue hhost hdec, transact_reset, abandon_of_next hu, writeFootprint_withHost]
  exact ⟨_, rfl, rfl, rfl, fun x hx => read_scrub_outside _ _ _ _ x hx⟩

end Sys2Proof.Machine
end

section
/-! PROOFS. Two parts of the block as arithmetic on numbers: `UNFIELD` (spec/40_datapath.md R60) and the checksum step
(spec/44_checksum.md R87); and what the second says of one changed plaintext byte (R94). -/

namespace Sys2Proof.Machine

/-! ### UNFIELD (R60) -/

/-- The big-endian code unit of two bytes, as a number. -/
theorem toNat_append_byte (hi lo : Byte) : (hi ++ lo : CodeUnit).toNat = hi.toNat * 256 + lo.toNat := by
  rw [BitVec.toNat_append, ← Nat.shiftLeft_add_eq_or_of_lt lo.isLt, Nat.shiftLeft_eq]

/-- Settles O19: subtracting the bias adds its complement modulo `2^16`, and the field is the low 14 bits. -/
theorem unfieldSubtractsBias : Obligations.UnfieldSubtractsBias := by
  intro hi lo
  rw [unfield, BitVec.extractLsb'_toNat, BitVec.toNat_sub, toNat_append_byte, Nat.add_comm (2 ^ 16 - bias.toNat)]
  rfl

/-! ### The checksum step (R87) -/

/-- A bit pair put at position `k` of a word loses no bit. -/
theorem toNat_pair_shiftLeft (p : BitVec 2) {k : Nat} (hk : k ≤ 24) :
    (p.setWidth 32 <<< k).toNat = p.toNat * 2 ^ k := by
  have hfit : p.toNat * 2 ^ k < 2 ^ 32 :=
    calc p.toNat * 2 ^ k < 2 ^ 2 * 2 ^ k := Nat.mul_lt_mul_of_pos_right p.isLt (Nat.two_pow_pos k)
      _ = 2 ^ (2 + k) := (Nat.pow_add 2 2 k).symm
      _ ≤ 2 ^ 32 := Nat.pow_le_pow_right (by decide) (by omega)
  rw [BitVec.toNat_shiftLeft, BitVec.toNat_setWidth_of_le (by decide), Nat.shiftLeft_eq, Nat.mod_eq_of_lt hfit]

/-- Bit pairs at 24, 16, 8 and 0 lie on disjoint bits, so putting them together adds them. -/
theorem pairs_or_eq_add (p q r s : BitVec 2) :
    p.toNat * 2 ^ 24 ||| q.toNat * 2 ^ 16 ||| r.toNat * 2 ^ 8 ||| s.toNat =
      p.toNat * 2 ^ 24 + q.toNat * 2 ^ 16 + r.toNat * 2 ^ 8 + s.toNat := by
  have hq := q.isLt
  have hr := r.isLt
  have hs := s.isLt
  simp only [Nat.or_assoc, Nat.add_assoc, ← Nat.shiftLeft_eq]
  rw [← Nat.shiftLeft_add_eq_or_of_lt (i := 8), ← Nat.shiftLeft_add_eq_or_of_lt (i := 16),
    ← Nat.shiftLeft_add_eq_or_of_lt (i := 24)]
  all_goals omega

theorem toNat_spread (b : Byte) :
    (spread b).toNat =
      b.toNat / 64 * 2 ^ 24 + b.toNat / 16 % 4 * 2 ^ 16 + b.toNat / 4 % 4 * 2 ^ 8 + b.toNat % 4 := by
  simp only [spread, spreadPos, BitVec.toNat_or, toNat_pair_shiftLeft, Nat.le_refl, Nat.reduceLeDiff, Nat.pow_zero,
    Nat.mul_one, pairs_or_eq_add]
  simp only [BitVec.extractLsb'_toNat, Nat.shiftRight_eq_div_pow]
  omega

/-- The two parts of a rotated word lie on disjoint bits, so putting them together adds them. -/
theorem toNat_rotateLeft_checksumRotation (w : Word) :
    (w.rotateLeft checksumRotation).toNat = w.toNat % 2 ^ 29 * 8 + w.toNat / 2 ^ 29 := by
  have hhigh : w.toNat / 2 ^ 29 < 2 ^ 3 := by omega
  have hlow : w.toNat <<< 3 % 2 ^ 32 = (w.toNat % 2 ^ 29) <<< 3 := by omega
  rw [BitVec.toNat_rotateLeft, checksumRotation, hlow, Nat.shiftRight_eq_div_pow,
    ← Nat.shiftLeft_add_eq_or_of_lt hhigh, Nat.shiftLeft_eq]

theorem toNat_sumStep (a : Word) (b : Byte) :
    (sumStep a b).toNat =
      2 ^ 32 - 1 -
        ((a.toNat + (spread b).toNat) % 2 ^ 32 * 8 % 2 ^ 32 + (a.toNat + (spread b).toNat) % 2 ^ 32 / 2 ^ 29) := by
  rw [sumStep, BitVec.toNat_not, toNat_rotateLeft_checksumRotation, BitVec.toNat_add,
    ← Nat.mul_mod_mul_right 8]
  rfl

/-- Settles O35, with both formulas proved above. -/
theorem sumStepArithmetic : Obligations.SumStepArithmetic := fun a b => ⟨toNat_spread b, toNat_sumStep a b⟩

/-! ### One changed byte (R94) -/

theorem spread_injective : Function.Injective spread := by
  intro b b' h
  have hnat := congrArg BitVec.toNat h
  rw [toNat_spread, toNat_spread] at hnat
  apply BitVec.eq_of_toNat_eq
  omega

/-- The rotation undone: the low 3 bits go back to the top. -/
theorem toNat_eq_of_rotateLeft_checksumRotation (w : Word) :
    w.toNat = (w.rotateLeft checksumRotation).toNat % 8 * 2 ^ 29 + (w.rotateLeft checksumRotation).toNat / 8 := by
  have hw := w.isLt
  rw [toNat_rotateLeft_checksumRotation]
  omega

theorem rotateLeft_checksumRotation_injective :
    Function.Injective fun w : Word => w.rotateLeft checksumRotation := by
  intro w w' (h : w.rotateLeft checksumRotation = w'.rotateLeft checksumRotation)
  apply BitVec.eq_of_toNat_eq
  rw [toNat_eq_of_rotateLeft_checksumRotation, h, ← toNat_eq_of_rotateLeft_checksumRotation]

/-- A step rotates and complements the sum, and both can be undone. -/
theorem sumStep_eq_iff {a a' : Word} {b b' : Byte} :
    sumStep a b = sumStep a' b' ↔ a + spread b = a' + spread b' := by
  rw [sumStep, sumStep, BitVec.not_inj]
  exact rotateLeft_checksumRotation_injective.eq_iff

/-- Later bytes, the same for both, keep two accumulators apart. -/
theorem sumFold_injective (y : List Byte) : Function.Injective fun a => sumFold a y := by
  induction y with
  | nil => exact Function.injective_id
  | cons b rest ih => exact fun a a' h => add_right_cancel (sumStep_eq_iff.mp (ih h))

theorem sumFold_append (a : Word) (x y : List Byte) : sumFold a (x ++ y) = sumFold (sumFold a x) y := by
  simp only [sumFold_eq_foldl, List.foldl_append]

/-- Settles O36: the accumulators agree before the changed byte, differ after it, and no later byte brings them together
again. -/
theorem oneByteChangesAccumulator : Obligations.OneByteChangesAccumulator := by
  intro a x y b b' hne h
  rw [sumFold_append, sumFold_append] at h
  have hstep : sumStep (sumFold a x) b = sumStep (sumFold a x) b' := sumFold_injective y h
  exact hne (spread_injective (add_left_cancel (sumStep_eq_iff.mp hstep)))

end Sys2Proof.Machine
end
